-- ==== Sys2Proof/Config.lean ====
section
/-!
DEFINITION. What an implementation of FPE25519 fixes: the moduli, the curve constant, the fixed root of −1 and the two
size parameters (`00_scope.md` R6 to R11). None of it is architectural state (R11, R37): no command names it and no host
access reaches it. There is no free value in this model: R5 says that every open choice is fixed by the spec.
-/

namespace Sys2Proof.Config

/-- The field modulus p = 2^255 − 19 (`00_scope.md` R7). -/
def pMod : Nat := 2 ^ 255 - 19

/-- The scalar modulus L, the prime group order of the curve (`00_scope.md` R8; the digits are the spec's, from general
knowledge: log entry 4). -/
def lOrd : Nat := 2 ^ 252 + 27742317777372353535851937790883648493

/-- The curve constant d = −121665/121666 mod p (`00_scope.md` R9; log entry 4). -/
def dCurve : Nat := 0x52036cee2b6ffe738cc740797779e89800700a4d4141d8ab75eb4dca135978a3

/-- SQRT_M1, the even square root of −1 mod p (`00_scope.md` R10; log entry 4). Which root stands here is not observable
(R32 (d)). -/
def sqrtM1 : Nat := 0x2b8324804fc1df0b2b4d00993dfbd7a72f431806ad2fe478c4ee1b274a0ea0b0

/-- NREG, the registers in each of the files F, S and P (`00_scope.md` R6, `10_state.md` R20 to R22; log entry 3). -/
abbrev nReg : Nat := 16

/-- NSLOT, the 32-byte slots of BUF (`00_scope.md` R6, `10_state.md` R30; log entry 3). -/
abbrev nSlot : Nat := 32

/-- BUF's size in bytes (`10_state.md` R30). -/
abbrev bufSize : Nat := 1024

theorem pMod_pos : 0 < pMod := by decide

theorem lOrd_pos : 0 < lOrd := by decide

end Sys2Proof.Config
end

