-- ==== Sys2Proof/Syntax.lean ====
section
/-!
DEFINITION. The 25 commands of FPE25519, one constructor per row of the opcode table (`30_encoding.md` R73), with the
operands their formats give them (R71, R72, R77): 4-bit register numbers in the file the opcode implies, 5-bit slot
numbers, the two count fields of PMSM as they stand in the word (count minus one), and the hint `vt` (R75).
-/

namespace Sys2Proof

/-- The number of a field register F0 .. F15 (`10_state.md` R20). -/
abbrev FReg := Fin Config.nReg

/-- The number of a scalar register S0 .. S15 (`10_state.md` R21). -/
abbrev SReg := Fin Config.nReg

/-- The number of a point register P0 .. P15 (`10_state.md` R22). -/
abbrev PReg := Fin Config.nReg

/-- A BUF slot number (`10_state.md` R30). -/
abbrev Slot := Fin Config.nSlot

/-- A PMSM count field, holding the count minus one (`30_encoding.md` R77). -/
abbrev CountField := Fin Config.nReg

/-- The commands of `30_encoding.md` R73, in the table's order. -/
inductive Instr where
  | fadd (rd ra rb : FReg)
  | fsub (rd ra rb : FReg)
  | fneg (rd ra : FReg)
  | fmul (rd ra rb : FReg)
  | fsqr (rd ra : FReg)
  | finv (rd ra : FReg)
  | fisqrt (rd ra : FReg)
  | fsel (rd ra rb : FReg)
  | fld (rd : FReg) (slot : Slot)
  | fst (slot : Slot) (ra : FReg)
  | sadd (rd ra rb : SReg)
  | smul (rd ra rb : SReg)
  | szero (rd : SReg)
  | sone (rd : SReg)
  | sld (rd : SReg) (slot : Slot)
  | sst (slot : Slot) (ra : SReg)
  | pident (rd : PReg)
  | padd (rd ra rb : PReg)
  | pdbl (rd ra : PReg)
  | pneg (rd ra : PReg)
  | psmul (rd : PReg) (ra : SReg) (rb : PReg) (vt : Bool)
  | peq (ra rb : PReg)
  | pdec (rd : PReg) (slot : Slot)
  | penc (slot : Slot) (ra : PReg)
  | pmsm (rd : PReg) (ra : SReg) (rb : PReg) (nsm1 npm1 : CountField) (vt : Bool)
deriving DecidableEq, Repr

end Sys2Proof
end

