-- ==== Sys2Proof/WellFormed.lean ====
section
/-!
DEFINITION. Which commands are well formed. Register and slot numbers are in range by their types (`30_encoding.md` R77:
all 16 values name a register and all 32 a slot), so the only checks are the two of R76 on the register runs of PMSM.
-/

namespace Sys2Proof

/-- `30_encoding.md` R76: a run of `m1 + 1` registers that starts at register `first` does not pass register 15. -/
def runFits (first : Fin Config.nReg) (m1 : CountField) : Bool := decide (first.val + m1.val ≤ 15)

/-- A command a word can stand for (`30_encoding.md` R74, R76). -/
def Instr.wellFormed : Instr → Bool
  | .fadd _ _ _ => true
  | .fsub _ _ _ => true
  | .fneg _ _ => true
  | .fmul _ _ _ => true
  | .fsqr _ _ => true
  | .finv _ _ => true
  | .fisqrt _ _ => true
  | .fsel _ _ _ => true
  | .fld _ _ => true
  | .fst _ _ => true
  | .sadd _ _ _ => true
  | .smul _ _ _ => true
  | .szero _ => true
  | .sone _ => true
  | .sld _ _ => true
  | .sst _ _ => true
  | .pident _ => true
  | .padd _ _ _ => true
  | .pdbl _ _ => true
  | .pneg _ _ => true
  | .psmul _ _ _ _ => true
  | .peq _ _ => true
  | .pdec _ _ => true
  | .penc _ _ => true
  | .pmsm _ ra rb nsm1 npm1 _ => runFits ra nsm1 && runFits rb npm1

end Sys2Proof
end

