-- ==== Sys2Proof/Word.lean ====
section
/-!
DEFINITION. The word types: a 32-bit command or control word and an 8-bit byte (`00_scope.md` R13).
-/

namespace Sys2Proof

/-- A 32-bit word: a command word, or a control register as the host sees it (`00_scope.md` R13, CMD_BITS of R6). -/
abbrev Word := BitVec 32

/-- A byte of BUF (`20_memory.md` R50). -/
abbrev Byte := BitVec 8

end Sys2Proof
end

