-- ==== Sys2Proof/Decode.lean ====
section
/-!
DEFINITION. Decoding of a 32-bit command word (`30_encoding.md` R70 to R78), total on all 2^32 words and strict, and after
it the encoder (R79), written from the same tables. The spec's ILLEGAL is one result; the decoder names which of the three
tests of R74 the word fails.
-/

namespace Sys2Proof

/-- The reason a word is ILLEGAL (`30_encoding.md` R74, R78). All three have the same effect, result code 0x80. -/
inductive DecodeError where
  /-- No row of R73 has this `op`. -/
  | unknownOpcode
  /-- A field the format does not use, or a reserved bit, is nonzero. -/
  | unusedBitSet
  /-- A register run of PMSM passes register 15 (R76). -/
  | runPastEnd
deriving DecidableEq, Repr

/-- The formats of `30_encoding.md` R72. -/
inductive Format where
  | r3 | r2 | r1 | cmp | sm | ld | st | v
deriving DecidableEq, Repr

/-- The bits a decoder compares: the `op` bits and the bits that must be zero (`30_encoding.md` R72). -/
def formatMask : Format → Word
  | .r3 => 0xFFF000FF#32
  | .r2 => 0xFFFF00FF#32
  | .r1 => 0xFFFFF0FF#32
  | .cmp => 0xFFF00FFF#32
  | .sm => 0xEFF000FF#32
  | .ld => 0xFFE0F0FF#32
  | .st => 0xFFE00FFF#32
  | .v => 0xE00000FF#32

/-! The fields of the command word (`30_encoding.md` R71). -/

def opField (w : Word) : BitVec 8 := w.extractLsb 7 0

def rdField (w : Word) : Fin 16 := (w.extractLsb 11 8).toFin

def raField (w : Word) : Fin 16 := (w.extractLsb 15 12).toFin

def rbField (w : Word) : Fin 16 := (w.extractLsb 19 16).toFin

def slotField (w : Word) : Fin 32 := (w.extractLsb 20 16).toFin

def nsm1Field (w : Word) : Fin 16 := (w.extractLsb 23 20).toFin

def npm1Field (w : Word) : Fin 16 := (w.extractLsb 27 24).toFin

def vtField (w : Word) : Bool := w.getLsbD 28

/-- The second and third test of `30_encoding.md` R74: the compared bits are the row's `match`, whose value is the row's
`op` with zeros above it, and the decoded command's register runs stay inside their files. -/
def strict (fmt : Format) (op : BitVec 8) (w : Word) (i : Instr) : Except DecodeError Instr :=
  if w &&& formatMask fmt ≠ op.setWidth 32 then .error .unusedBitSet
  else if i.wellFormed then .ok i
  else .error .runPastEnd

/-- `Decode(w)` of `30_encoding.md` R74, over the rows of R73. -/
def decode (w : Word) : Except DecodeError Instr :=
  let rd := rdField w
  let ra := raField w
  let rb := rbField w
  let slot := slotField w
  let op := opField w
  match op.toNat with
  | 0x10 => strict .r3 op w (.fadd rd ra rb)
  | 0x11 => strict .r3 op w (.fsub rd ra rb)
  | 0x12 => strict .r2 op w (.fneg rd ra)
  | 0x13 => strict .r3 op w (.fmul rd ra rb)
  | 0x14 => strict .r2 op w (.fsqr rd ra)
  | 0x15 => strict .r2 op w (.finv rd ra)
  | 0x16 => strict .r2 op w (.fisqrt rd ra)
  | 0x17 => strict .r3 op w (.fsel rd ra rb)
  | 0x18 => strict .ld op w (.fld rd slot)
  | 0x19 => strict .st op w (.fst slot ra)
  | 0x20 => strict .r3 op w (.sadd rd ra rb)
  | 0x21 => strict .r3 op w (.smul rd ra rb)
  | 0x22 => strict .r1 op w (.szero rd)
  | 0x23 => strict .r1 op w (.sone rd)
  | 0x28 => strict .ld op w (.sld rd slot)
  | 0x29 => strict .st op w (.sst slot ra)
  | 0x30 => strict .r1 op w (.pident rd)
  | 0x31 => strict .r3 op w (.padd rd ra rb)
  | 0x32 => strict .r2 op w (.pdbl rd ra)
  | 0x33 => strict .r2 op w (.pneg rd ra)
  | 0x34 => strict .sm op w (.psmul rd ra rb (vtField w))
  | 0x35 => strict .cmp op w (.peq ra rb)
  | 0x38 => strict .ld op w (.pdec rd slot)
  | 0x39 => strict .st op w (.penc slot ra)
  | 0x40 => strict .v op w (.pmsm rd ra rb (nsm1Field w) (npm1Field w) (vtField w))
  | _ => .error .unknownOpcode

/-! The encoder (`30_encoding.md` R79): absent operands are 0. -/

/-- `v << lo` in a 32-bit word. -/
def place (v lo : Nat) : Word := BitVec.ofNat 32 v <<< lo

/-- R3, R2, R1, CMP, SM: `w = op | rd<<8 | ra<<12 | rb<<16`. -/
def encodeReg (op rd ra rb : Nat) : Word := place op 0 ||| place rd 8 ||| place ra 12 ||| place rb 16

/-- LD: `w = op | rd<<8 | slot<<16`. -/
def encodeLoad (op rd slot : Nat) : Word := place op 0 ||| place rd 8 ||| place slot 16

/-- ST: `w = op | ra<<12 | slot<<16`. -/
def encodeStore (op ra slot : Nat) : Word := place op 0 ||| place ra 12 ||| place slot 16

/-- The command word of a well-formed command (`30_encoding.md` R73, R79). -/
def encode : Instr → Word
  | .fadd rd ra rb => encodeReg 0x10 rd ra rb
  | .fsub rd ra rb => encodeReg 0x11 rd ra rb
  | .fneg rd ra => encodeReg 0x12 rd ra 0
  | .fmul rd ra rb => encodeReg 0x13 rd ra rb
  | .fsqr rd ra => encodeReg 0x14 rd ra 0
  | .finv rd ra => encodeReg 0x15 rd ra 0
  | .fisqrt rd ra => encodeReg 0x16 rd ra 0
  | .fsel rd ra rb => encodeReg 0x17 rd ra rb
  | .fld rd slot => encodeLoad 0x18 rd slot
  | .fst slot ra => encodeStore 0x19 ra slot
  | .sadd rd ra rb => encodeReg 0x20 rd ra rb
  | .smul rd ra rb => encodeReg 0x21 rd ra rb
  | .szero rd => encodeReg 0x22 rd 0 0
  | .sone rd => encodeReg 0x23 rd 0 0
  | .sld rd slot => encodeLoad 0x28 rd slot
  | .sst slot ra => encodeStore 0x29 ra slot
  | .pident rd => encodeReg 0x30 rd 0 0
  | .padd rd ra rb => encodeReg 0x31 rd ra rb
  | .pdbl rd ra => encodeReg 0x32 rd ra 0
  | .pneg rd ra => encodeReg 0x33 rd ra 0
  | .psmul rd ra rb vt => encodeReg 0x34 rd ra rb ||| place vt.toNat 28
  | .peq ra rb => encodeReg 0x35 0 ra rb
  | .pdec rd slot => encodeLoad 0x38 rd slot
  | .penc slot ra => encodeStore 0x39 ra slot
  | .pmsm rd ra rb nsm1 npm1 vt =>
    encodeReg 0x40 rd ra rb ||| place nsm1 20 ||| place npm1 24 ||| place vt.toNat 28

/-- The word the opcode table numbers `w`, with the bits above `nbits` zero: a command is one 32-bit word (`30_encoding.md`
R70), so the table's numbering is the word's own. -/
def tableWord (nbits w : Nat) : Word := BitVec.ofNat 32 (w % 2 ^ nbits)

/-- The command the decoder reads from the opcode table's word `w` of `nbits` bits. -/
def decodeTableWord (nbits w : Nat) : Option Instr :=
  match decode (tableWord nbits w) with
  | .ok i => some i
  | .error _ => none

end Sys2Proof
end

