-- ==== Sys2Proof/Machine/State.lean ====
section
/-!
DEFINITION. The state of one FPE25519 instance (`10_state.md`): the three typed register files, FLAG, STATUS, BUF, and the
host's side of the window as plain data: the host accesses still to come and what the last one gave back.
-/

namespace Sys2Proof.Machine

/-- A FieldElement: an integer in [0, p) (`10_state.md` R20, `00_scope.md` R16). There is no non-canonical content. -/
abbrev Fp := Fin Config.pMod

/-- A ScalarElement: an integer in [0, L) (`10_state.md` R21, `00_scope.md` R16). -/
abbrev Zl := Fin Config.lOrd

/-- An EdwardsPoint, held as its affine coordinates, the architectural content (`10_state.md` R22, `42_point.md` R147). That
it lies on the curve is an invariant of the machine (`State.PointsOnCurve`), not part of the type (log entry 5). -/
structure Point where
  x : Fp
  y : Fp
deriving DecidableEq, Repr

/-- The result codes: exactly these seven (`60_exceptions.md` R200, U17). -/
inductive ResultCode where
  | ok
  | nonCanonicalEncoding
  | pointDecompressionFailure
  | undefinedInverse
  | lengthMismatch
  | illegalCommand
  | invalidOperand
deriving DecidableEq, Repr

/-- The bytes of BUF as address and value pairs, addresses strictly rising from 0 to 1023, no value equal to what an
unlisted address reads as (`20_memory.md` R50; log entry 14). -/
abbrev Memory := List Host.Cell

/-- What the world outside the engine does to it, one event at a time (`10_state.md` R33, `20_memory.md` R57, R65): a read or
a write of `width` bytes at a byte offset from the window base, or the platform's hardware reset
(`70_reset_and_hazards.md` R230). Of a written value narrower than a word the low bytes count. -/
inductive HostEvent where
  | read (offset width : Nat)
  | write (offset width : Nat) (value : Word)
  | hardwareReset
deriving DecidableEq, Repr

/-- Everything the spec gives the machine (`10_state.md` R20 to R36), and the host's side of the window. -/
structure State where
  /-- F0 .. F15; `none` is NONE (R20). -/
  fReg : Vector (Option Fp) Config.nReg
  /-- S0 .. S15 (R21). -/
  sReg : Vector (Option Zl) Config.nReg
  /-- P0 .. P15 (R22). -/
  pReg : Vector (Option Point) Config.nReg
  /-- FLAG (R25). -/
  flag : Bool
  /-- STATUS.ERR (R26). -/
  err : ResultCode
  /-- STATUS.STICKY (R26). -/
  sticky : Bool
  /-- BUF (R30). -/
  buf : Memory
  /-- The host accesses not yet served, oldest first: the sequence of the host's accesses is the program (R31). -/
  pending : List HostEvent
  /-- What the last served access gave back to the host: a value for a read, nothing for a write (`20_memory.md` R65). -/
  response : Option Word
deriving DecidableEq, Repr

/-- The machine stops with no fault: errors are result codes, and no rule produces a fatal condition
(`60_exceptions.md` R204, R209, U9). The type is empty (log entry 13). -/
inductive Fault where
deriving DecidableEq, Repr

/-- The moves the model gives no meaning. -/
inductive Refusal where
  /-- Raised by an arm of `exec` whose command has no meaning yet; no arm does. Safe. -/
  | notModelled (mnemonic : String)
  /-- Raised by the host window on a reserved access (`20_memory.md` R55: "This spec gives them no meaning; a model should
  refuse them"). Safe: nothing can be proved of what follows such an access. -/
  | reservedAccess (offset width : Nat)
deriving DecidableEq, Repr

/-- The machine right after reset (`10_state.md` R36, `70_reset_and_hazards.md` R230), with no host access waiting and none
served (log entries 1 and 2). -/
def State.reset : State where
  fReg := Vector.replicate Config.nReg none
  sReg := Vector.replicate Config.nReg none
  pReg := Vector.replicate Config.nReg none
  flag := false
  err := .ok
  sticky := false
  buf := []
  pending := []
  response := none

end Sys2Proof.Machine
end

