-- ==== Sys2Proof/Machine/FieldArith.lean ====
section
/-!
DEFINITION. Arithmetic mod p and mod L on canonical integers: exact on the integers, then reduced once (`40_field.md` R106,
`41_scalar.md` R126), with the primitives of `00_scope.md` R12 and R15.
-/

namespace Sys2Proof.Machine

/-- The residue of an integer mod p, in [0, p) (`00_scope.md` R15). -/
def toFp (n : Nat) : Fp := ⟨n % Config.pMod, Nat.mod_lt _ Config.pMod_pos⟩

/-- The residue of an integer mod L, in [0, L). -/
def toZl (n : Nat) : Zl := ⟨n % Config.lOrd, Nat.mod_lt _ Config.lOrd_pos⟩

/-- Square and multiply over the low `fuel` bits of the exponent, with the product so far in `acc`. -/
def powModBits (m : Nat) : Nat → Nat → Nat → Nat → Nat
  | 0, _, _, acc => acc
  | fuel + 1, b, e, acc =>
    powModBits m fuel (b * b % m) (e / 2) (if e % 2 = 1 then acc * b % m else acc)

/-- `b^e mod m` of `00_scope.md` R15. -/
def powMod (m b e : Nat) : Nat := powModBits m (e.log2 + 1) (b % m) e (1 % m)

/-! ## The field -/

/-- `40_field.md` R100. -/
def fpAdd (a b : Fp) : Fp := toFp (a.val + b.val)

/-- `40_field.md` R101. -/
def fpSub (a b : Fp) : Fp := toFp (a.val + (Config.pMod - b.val))

/-- `40_field.md` R102. -/
def fpNeg (a : Fp) : Fp := toFp (Config.pMod - a.val)

/-- `40_field.md` R103. -/
def fpMul (a b : Fp) : Fp := toFp (a.val * b.val)

/-- `40_field.md` R104. -/
def fpSqr (a : Fp) : Fp := fpMul a a

/-- `inv_p(a)` of `00_scope.md` R15, by the exponent p − 2 (`40_field.md` R105); of use for a ≠ 0 only. -/
def fpInv (a : Fp) : Fp := toFp (powMod Config.pMod a.val (Config.pMod - 2))

/-- The field element 0. -/
def fpZero : Fp := toFp 0

/-- The field element 1. -/
def fpOne : Fp := toFp 1

/-- The sign of a field element, the least significant bit of its canonical integer (`00_scope.md` R12). -/
def sgn (a : Fp) : Nat := a.val % 2

/-- `is_square_p(a)` of `00_scope.md` R15, by Euler's power; 0 counts as a square. -/
def fpIsSquare (a : Fp) : Bool :=
  decide (a = fpZero) || decide (powMod Config.pMod a.val ((Config.pMod - 1) / 2) = 1)

/-- Of r and p − r the one with sign `s` (`40_field.md` R107, `43_codec.md` R175 step 4); 0 stays 0. -/
def withSign (s : Nat) (r : Fp) : Fp := if sgn r = s then r else fpNeg r

/-- r·r·a = 1 (`40_field.md` R107). -/
def isInvSqrtOf (a r : Fp) : Bool := decide (fpMul (fpMul r r) a = fpOne)

/-- For a nonzero square a, the even r with r·r·a = 1; nothing for 0 and for a non-square (`40_field.md` R107). The root is
found as the rule's hint says: the candidate a^((p−5)/8), or it times SQRT_M1 (log entry 7). -/
def fpInvSqrt (a : Fp) : Option Fp :=
  if a ≠ fpZero ∧ fpIsSquare a = true then
    let c := toFp (powMod Config.pMod a.val ((Config.pMod - 5) / 8))
    if isInvSqrtOf a c then some (withSign 0 c) else some (withSign 0 (fpMul c (toFp Config.sqrtM1)))
  else none

/-- A square root of `w`, where there is one: 0 for 0, else w times an inverse square root of w (`40_field.md` R112,
`43_codec.md` R172, R175). -/
def fpSqrt (w : Fp) : Option Fp :=
  if w = fpZero then some fpZero else (fpInvSqrt w).map (fpMul w)

/-- The selection of `40_field.md` R108: bit 0 takes the first operand, bit 1 the second. -/
def fpSelect (bit : Bool) (a b : Fp) : Fp := if bit then b else a

/-! ## The scalars -/

/-- `41_scalar.md` R120. -/
def zlAdd (a b : Zl) : Zl := toZl (a.val + b.val)

/-- `41_scalar.md` R121. -/
def zlMul (a b : Zl) : Zl := toZl (a.val * b.val)

end Sys2Proof.Machine
end

