-- ==== Sys2Proof/Machine/Curve.lean ====
section
/-!
DEFINITION. The curve −x² + y² = 1 + d·x²·y² and its group on affine points (`42_point.md` R140 to R147), and the 32-byte
codec's mathematics (`43_codec.md` R170 to R173).
-/

namespace Sys2Proof.Machine

/-- The curve constant d as a field element (`00_scope.md` R9). -/
def fpD : Fp := toFp Config.dCurve

/-- Membership in E (`42_point.md` R140). -/
def onCurve (P : Point) : Bool :=
  decide (fpSub (fpSqr P.y) (fpSqr P.x) = fpAdd fpOne (fpMul fpD (fpMul (fpSqr P.x) (fpSqr P.y))))

/-- O = (0, 1) (`42_point.md` R142). -/
def pointIdentity : Point := ⟨fpZero, fpOne⟩

/-- −(x, y) = (−x, y) (`42_point.md` R145). -/
def pointNeg (P : Point) : Point := ⟨fpNeg P.x, P.y⟩

/-- P1 ⊕ P2, the complete addition law (`42_point.md` R141; off the curve log entry 18). -/
def pointAdd (P Q : Point) : Point :=
  let t := fpMul fpD (fpMul (fpMul P.x Q.x) (fpMul P.y Q.y))
  ⟨fpMul (fpAdd (fpMul P.x Q.y) (fpMul P.y Q.x)) (fpInv (fpAdd fpOne t)),
   fpMul (fpAdd (fpMul P.y Q.y) (fpMul P.x Q.x)) (fpInv (fpSub fpOne t))⟩

/-- [2]P = P ⊕ P (`42_point.md` R152). -/
def pointDouble (P : Point) : Point := pointAdd P P

/-- Double and add over the low `fuel` bits of `k`. -/
def pointMulBits : Nat → Nat → Point → Point
  | 0, _, _ => pointIdentity
  | fuel + 1, k, P =>
    let rest := pointMulBits fuel (k / 2) (pointDouble P)
    if k % 2 = 1 then pointAdd P rest else rest

/-- [k]P (`42_point.md` R146, R154), by doubling and conditional addition: R154 makes the method free, and on E the result
is that of R146's recursion, because ⊕ is associative there (R144; log entry 6). -/
def pointMul (k : Nat) (P : Point) : Point := pointMulBits (k.log2 + 1) k P

/-- [k]P by the recursion of `42_point.md` R146, word for word: [0]P = O, [k + 1]P = [k]P ⊕ P. Statements compare `pointMul`
with it. -/
def pointMultiple : Nat → Point → Point
  | 0, _ => pointIdentity
  | k + 1, P => pointAdd (pointMultiple k P) P

/-- The sum of a nonempty list of points in the order written (`44_msm.md` R190); O for the empty list, which no command
gives it. -/
def pointSum : List Point → Point
  | [] => pointIdentity
  | P :: Ps => Ps.foldl pointAdd P

/-- [s_0]A_0 ⊕ … ⊕ [s_(n−1)]A_(n−1) (`44_msm.md` R190). -/
def pointMultiSum (ss : List Zl) (As : List Point) : Point :=
  pointSum (List.zipWith (fun s A => pointMul s.val A) ss As)

/-! ## The codec -/

/-- The integer whose `LE32` is the encoding of an affine point: y with the sign of x in bit 255 (`43_codec.md` R170). -/
def pointCode (P : Point) : Nat := P.y.val + 2 ^ 255 * sgn P.x

/-- The integer a slot holds as a field element, or NonCanonicalEncoding where it is not below p (`40_field.md` R109). -/
def fpDecode (n : Nat) : Except ResultCode Fp :=
  if h : n < Config.pMod then .ok ⟨n, h⟩ else .error .nonCanonicalEncoding

/-- The same for a scalar and L (`41_scalar.md` R124). -/
def zlDecode (n : Nat) : Except ResultCode Zl :=
  if h : n < Config.lOrd then .ok ⟨n, h⟩ else .error .nonCanonicalEncoding

/-- w = u/v = (y² − 1)/(d·y² + 1), the value x² must have (`43_codec.md` R171, R172). -/
def xSquared (y : Fp) : Fp :=
  fpMul (fpSub (fpSqr y) fpOne) (fpInv (fpAdd (fpMul fpD (fpSqr y)) fpOne))

/-- Steps 3 and 4 of `43_codec.md` R175 on a square root of w, if there is one, the decoded y and the sign bit. -/
def pointFromRoot (root : Option Fp) (y : Fp) (s : Nat) : Except ResultCode Point :=
  match root with
  | none => .error .pointDecompressionFailure
  | some x => if x = fpZero ∧ s = 1 then .error .pointDecompressionFailure else .ok ⟨withSign s x, y⟩

/-- Steps 2 to 4 of `43_codec.md` R175 on the decoded y and the sign bit. -/
def pointFromY (y : Fp) (s : Nat) : Except ResultCode Point := pointFromRoot (fpSqrt (xSquared y)) y s

/-- The whole of `43_codec.md` R175 on the slot's integer: the sign bit is bit 255, the range check comes first. -/
def pointDecode (n : Nat) : Except ResultCode Point :=
  match fpDecode (n % 2 ^ 255) with
  | .error code => .error code
  | .ok y => pointFromY y (n / 2 ^ 255)

end Sys2Proof.Machine
end

