-- ==== Sys2Proof/Machine/Ops.lean ====
section
/-!
DEFINITION. The named operations over memory, registers and STATUS: byte strings (`00_scope.md` R13, R14), BUF
(`20_memory.md` R50 to R53), the registers' one way in and out (`10_state.md` R20 to R24), and ending a command, with or
without an error, as one operation each (`60_exceptions.md` R204). An FPE25519 error transfers no control and saves nothing
but its code (R206), and there is no return from one (R207): the next command executes normally.
-/

namespace Sys2Proof.Machine

/-! ## Byte strings -/

/-- The little-endian integer of a byte string; `FromLE` of `00_scope.md` R14 on 32 bytes. -/
def fromLE : List Byte → Nat
  | [] => 0
  | b :: bs => b.toNat + 256 * fromLE bs

/-- The `n` low bytes of an integer, least significant first (`00_scope.md` R13, R14). -/
def leBytes : Nat → Nat → List Byte
  | 0, _ => []
  | n + 1, v => BitVec.ofNat 8 v :: leBytes n (v / 256)

/-- `LE32` of `00_scope.md` R14. -/
def le32 (n : Nat) : List Byte := leBytes 32 n

/-! ## BUF -/

/-- What a byte of BUF that nothing has written reads as: its reset value (`10_state.md` R30, R36). -/
def unlistedByte : Byte := 0#8

/-- `BUF[a]` (`20_memory.md` R50). -/
def memByte : Memory → Nat → Byte
  | [], _ => unlistedByte
  | (k, v) :: rest, a => if k = a then v else memByte rest a

/-- The cell for address `a` in front of the cells of higher addresses, left out where the byte is what an unlisted address
reads as. -/
def consCell (a : Nat) (b : Byte) (rest : Memory) : Memory :=
  if b = unlistedByte then rest else (a, b) :: rest

/-- A write of one byte of BUF, keeping the canonical form. -/
def memStore : Memory → Nat → Byte → Memory
  | [], a, b => consCell a b []
  | (k, v) :: rest, a, b =>
    if k < a then (k, v) :: memStore rest a b
    else if k = a then consCell a b rest
    else consCell a b ((k, v) :: rest)

/-- `MemRead(a, n)` of `00_scope.md` R15. -/
def memRead (m : Memory) (a : Nat) : Nat → List Byte
  | 0 => []
  | n + 1 => memByte m a :: memRead m (a + 1) n

/-- `MemWrite(a, n, v)` of `00_scope.md` R15, for the `n`-byte string `v`. -/
def memWrite (m : Memory) (a : Nat) : List Byte → Memory
  | [] => m
  | b :: bs => memWrite (memStore m a b) (a + 1) bs

/-- The first byte of slot `k` (`20_memory.md` R52). -/
def slotAddr (k : Slot) : Nat := 32 * k.val

/-- `BufRead(k)` of `20_memory.md` R52. -/
def bufRead (m : Memory) (k : Slot) : List Byte := memRead m (slotAddr k) 32

/-- `BufWrite(k, v)` of `20_memory.md` R52. -/
def bufWrite (m : Memory) (k : Slot) (v : List Byte) : Memory := memWrite m (slotAddr k) v

/-- The canonical form above address `lo`: addresses strictly rising from `lo` on and inside BUF, no cell that reads as an
unlisted byte does. -/
def wfFrom (lo : Nat) : Memory → Bool
  | [] => true
  | (k, v) :: rest => decide (lo ≤ k) && decide (k < Config.bufSize) && decide (v ≠ unlistedByte) && wfFrom (k + 1) rest

/-- The canonical form of BUF (log entry 14). -/
def Memory.wf (m : Memory) : Bool := wfFrom 0 m

/-! ## Registers and FLAG -/

def State.getF (s : State) (r : FReg) : Option Fp := s.fReg[r]

def State.getS (s : State) (r : SReg) : Option Zl := s.sReg[r]

def State.getP (s : State) (r : PReg) : Option Point := s.pReg[r]

/-- A write of a field register; `none` invalidates it (`00_scope.md` R15). -/
def State.setF (s : State) (r : FReg) (v : Option Fp) : State := { s with fReg := s.fReg.set r v }

/-- A write of a scalar register. -/
def State.setS (s : State) (r : SReg) (v : Option Zl) : State := { s with sReg := s.sReg.set r v }

/-- A write of a point register. -/
def State.setP (s : State) (r : PReg) (v : Option Point) : State := { s with pReg := s.pReg.set r v }

/-- A write of FLAG (`10_state.md` R25). -/
def State.setFlag (s : State) (b : Bool) : State := { s with flag := b }

/-- A write of a whole slot of BUF. -/
def State.setSlot (s : State) (k : Slot) (v : List Byte) : State := { s with buf := bufWrite s.buf k v }

/-! ## Ending a command -/

/-- The result of a step of this machine. -/
abbrev Outcome := Host.Outcome State Fault Refusal

/-- The destination register of a command, if it has one (`10_state.md` R35). -/
inductive Dest where
  | none
  | f (r : FReg)
  | s (r : SReg)
  | p (r : PReg)
deriving DecidableEq, Repr

/-- The destination register, if any, becomes NONE (`60_exceptions.md` R204, R206). -/
def State.invalidate (st : State) : Dest → State
  | .none => st
  | .f r => st.setF r Option.none
  | .s r => st.setS r Option.none
  | .p r => st.setP r Option.none

/-- The last two lines of `Execute` (`60_exceptions.md` R204): every command writes ERR, and one that ends with a nonzero
code sets STICKY (`10_state.md` R26). -/
def State.setStatus (s : State) (code : ResultCode) : State :=
  { s with err := code, sticky := s.sticky || decide (code ≠ .ok) }

/-- The epilogue of `Execute` (`60_exceptions.md` R204) for a command with destination `d` that began in `s`: with code 0x00
the rule's writes stand; with any other code nothing of them does, and the destination register becomes NONE. -/
def endCommand (d : Dest) (s : State) : Except ResultCode State → Outcome
  | .ok t => .next (t.setStatus .ok)
  | .error code => .next ((s.invalidate d).setStatus code)

/-- A word `Decode` calls ILLEGAL changes nothing but STATUS (`30_encoding.md` R74, `60_exceptions.md` R204). -/
def illegalCommand (s : State) : Outcome := .next (s.setStatus .illegalCommand)

end Sys2Proof.Machine
end

