-- ==== Sys2Proof/Machine/Operands.lean ====
section
/-!
DEFINITION. Every operand form of the commands (`10_state.md` R24, R35, `30_encoding.md` R72, R77): source registers, which
must not be NONE (`60_exceptions.md` R204), slots, and the register runs of PMSM; and the shapes of command built from them.
A rule is a value of `Except ResultCode State`: the state with its writes done, or the code it raises. Sources are read from
the state the command began in, so a destination may be a source (R24).
-/

namespace Sys2Proof.Machine

/-- A source register's value, or InvalidOperand where it is NONE (`60_exceptions.md` R204). -/
def need {α : Type} : Option α → Except ResultCode α
  | none => .error .invalidOperand
  | some a => .ok a

/-- The values of a run of `n` registers from number `k` on (`44_msm.md` R190), or InvalidOperand where one is NONE. -/
def readRun {α : Type} (file : Vector (Option α) Config.nReg) (k : Nat) : Nat → Except ResultCode (List α)
  | 0 => .ok []
  | n + 1 =>
    match file[k]?.join with
    | none => .error .invalidOperand
    | some a =>
      match readRun file (k + 1) n with
      | .error code => .error code
      | .ok as => .ok (a :: as)

/-- The integer in a slot, `FromLE(BufRead(k))` (`20_memory.md` R51, R52). -/
def slotInt (s : State) (k : Slot) : Nat := fromLE (bufRead s.buf k)

/-! ## Shapes of command -/

/-- Rules of two sources: both must be valid. -/
def rule2 {α β : Type} (a : Option α) (b : Option β) (k : α → β → State) : Except ResultCode State :=
  match need a with
  | .error code => .error code
  | .ok a =>
    match need b with
    | .error code => .error code
    | .ok b => .ok (k a b)

/-- Rules of one source that raise nothing themselves. -/
def rule1 {α : Type} (a : Option α) (k : α → State) : Except ResultCode State :=
  match need a with
  | .error code => .error code
  | .ok a => .ok (k a)

/-- Formats R3 on F: FADD, FSUB, FMUL, FSEL. -/
def fieldBinary (op : Fp → Fp → Fp) (rd ra rb : FReg) (s : State) : Outcome :=
  endCommand (.f rd) s (rule2 (s.getF ra) (s.getF rb) fun a b => s.setF rd (some (op a b)))

/-- Formats R2 on F with no error of their own: FNEG, FSQR. -/
def fieldUnary (op : Fp → Fp) (rd ra : FReg) (s : State) : Outcome :=
  endCommand (.f rd) s (rule1 (s.getF ra) fun a => s.setF rd (some (op a)))

/-- Format R3 on S: SADD, SMUL. -/
def scalarBinary (op : Zl → Zl → Zl) (rd ra rb : SReg) (s : State) : Outcome :=
  endCommand (.s rd) s (rule2 (s.getS ra) (s.getS rb) fun a b => s.setS rd (some (op a b)))

/-- Format R1 on S: SZERO, SONE. -/
def scalarConst (v : Zl) (rd : SReg) (s : State) : Outcome :=
  endCommand (.s rd) s (.ok (s.setS rd (some v)))

/-- Format R2 on P: PDBL, PNEG. -/
def pointUnary (op : Point → Point) (rd ra : PReg) (s : State) : Outcome :=
  endCommand (.p rd) s (rule1 (s.getP ra) fun a => s.setP rd (some (op a)))

/-- Format LD: a slot's integer decoded into a register by `put` (FLD, SLD, PDEC). -/
def loadSlot {α : Type} (d : Dest) (dec : Nat → Except ResultCode α) (put : State → α → State) (slot : Slot) (s : State) :
    Outcome :=
  endCommand d s
    (match dec (slotInt s slot) with
     | .error code => .error code
     | .ok v => .ok (put s v))

/-- Format ST: a register's 32-byte encoding into a slot (FST, SST, PENC). -/
def storeSlot {α : Type} (a : Option α) (code : α → Nat) (slot : Slot) (s : State) : Outcome :=
  endCommand .none s (rule1 a fun v => s.setSlot slot (le32 (code v)))

end Sys2Proof.Machine
end

