-- ==== Sys2Proof/Machine/Codec.lean ====
section
/-!
DEFINITION. The compressed-point codec (`43_codec.md` R175, R176): PDEC and PENC. Neither touches FLAG.
-/

namespace Sys2Proof.Machine

/-- `43_codec.md` R175. -/
def execPdec (rd : PReg) (slot : Slot) (s : State) : Outcome :=
  loadSlot (.p rd) pointDecode (fun s v => s.setP rd (some v)) slot s

/-- `43_codec.md` R176. -/
def execPenc (slot : Slot) (ra : PReg) (s : State) : Outcome := storeSlot (s.getP ra) pointCode slot s

end Sys2Proof.Machine
end

