-- ==== Sys2Proof/Machine/Flags.lean ====
section
/-!
DEFINITION. FLAG and STATUS as numbers and words: the result codes' values (`60_exceptions.md` R200), the STATUS word
(`10_state.md` R26), the FLAG word (R28), and the one way the Booleans of FISQRT and PEQ become FLAG (R25).
-/

namespace Sys2Proof.Machine

/-- The 8-bit value of a result code (`60_exceptions.md` R200). -/
def codeByte : ResultCode → Byte
  | .ok => 0x00#8
  | .nonCanonicalEncoding => 0x01#8
  | .pointDecompressionFailure => 0x02#8
  | .undefinedInverse => 0x03#8
  | .lengthMismatch => 0x04#8
  | .illegalCommand => 0x80#8
  | .invalidOperand => 0x81#8

/-- The STATUS register as the host reads it: ERR in bits 7:0, STICKY in bit 8, bits 31:9 zero (`10_state.md` R26). -/
def statusWord (s : State) : Word := (codeByte s.err).setWidth 32 ||| ((BitVec.ofBool s.sticky).setWidth 32 <<< 8)

/-- The FLAG register as the host reads it: FLAG in bit 0, bits 31:1 zero (`10_state.md` R28). -/
def flagWord (s : State) : Word := (BitVec.ofBool s.flag).setWidth 32

/-- What a host write of `w` to the FLAG register makes of FLAG: bit 0 of the word (`10_state.md` R28). -/
def flagOfWord (w : Word) : Bool := w.getLsbD 0

/-- The Boolean that FISQRT leaves in FLAG: an inverse square root exists (`10_state.md` R25, `40_field.md` R107). -/
def flagOfRoot (r : Option Fp) : Bool := r.isSome

/-- The Boolean that PEQ leaves in FLAG: affine equality (`10_state.md` R25, `42_point.md` R155). -/
def flagOfEqual (a b : Point) : Bool := decide (a.x = b.x) && decide (a.y = b.y)

end Sys2Proof.Machine
end

