-- ==== Sys2Proof/Machine/Field.lean ====
section
/-!
DEFINITION. The field family (`40_field.md` R100 to R110): FADD FSUB FNEG FMUL FSQR FINV FISQRT FSEL FLD FST.
-/

namespace Sys2Proof.Machine

/-- `40_field.md` R100. -/
def execFadd (rd ra rb : FReg) (s : State) : Outcome := fieldBinary fpAdd rd ra rb s

/-- `40_field.md` R101. -/
def execFsub (rd ra rb : FReg) (s : State) : Outcome := fieldBinary fpSub rd ra rb s

/-- `40_field.md` R102. -/
def execFneg (rd ra : FReg) (s : State) : Outcome := fieldUnary fpNeg rd ra s

/-- `40_field.md` R103. -/
def execFmul (rd ra rb : FReg) (s : State) : Outcome := fieldBinary fpMul rd ra rb s

/-- `40_field.md` R104. -/
def execFsqr (rd ra : FReg) (s : State) : Outcome := fieldUnary fpSqr rd ra s

/-- `40_field.md` R105, `90_conflicts.md` C2: the inverse of 0 is UndefinedInverse and leaves NONE, never the value 0. -/
def execFinv (rd ra : FReg) (s : State) : Outcome :=
  endCommand (.f rd) s
    (match need (s.getF ra) with
     | .error code => .error code
     | .ok a => if a = fpZero then .error .undefinedInverse else .ok (s.setF rd (some (fpInv a))))

/-- `40_field.md` R107: the even root and FLAG 1, or 0 and FLAG 0; both arms end with 0x00. -/
def execFisqrt (rd ra : FReg) (s : State) : Outcome :=
  endCommand (.f rd) s
    (rule1 (s.getF ra) fun a =>
      (s.setF rd (some ((fpInvSqrt a).getD fpZero))).setFlag (flagOfRoot (fpInvSqrt a)))

/-- `40_field.md` R108: the bit is FLAG; both sources must be valid whichever is selected. -/
def execFsel (rd ra rb : FReg) (s : State) : Outcome := fieldBinary (fpSelect s.flag) rd ra rb s

/-- `40_field.md` R109. -/
def execFld (rd : FReg) (slot : Slot) (s : State) : Outcome :=
  loadSlot (.f rd) fpDecode (fun s v => s.setF rd (some v)) slot s

/-- `40_field.md` R110. -/
def execFst (slot : Slot) (ra : FReg) (s : State) : Outcome := storeSlot (s.getF ra) Fin.val slot s

end Sys2Proof.Machine
end

