-- ==== Sys2Proof/Machine/Msm.lean ====
section
/-!
DEFINITION. Multiscalar multiplication (`44_msm.md` R190): PMSM, in the order of checks of `60_exceptions.md` R204 and R205.
-/

namespace Sys2Proof.Machine

/-- The rule of PMSM after decoding (`44_msm.md` R190): the lengths before any register, then the two runs, then the sum. -/
def pmsmRule (rd : PReg) (ra : SReg) (rb : PReg) (nsm1 npm1 : CountField) (s : State) : Except ResultCode State :=
  if nsm1 ≠ npm1 then .error .lengthMismatch
  else
    match readRun s.sReg ra.val (nsm1.val + 1) with
    | .error code => .error code
    | .ok ss =>
      match readRun s.pReg rb.val (npm1.val + 1) with
      | .error code => .error code
      | .ok As => .ok (s.setP rd (some (pointMultiSum ss As)))

/-- `44_msm.md` R190. A run that passes register 15 is no command: its word is illegal (`30_encoding.md` R76, R74), and so
is this term (log entry 8). `vt` never changes the result (R75, R193). -/
def execPmsm (rd : PReg) (ra : SReg) (rb : PReg) (nsm1 npm1 : CountField) (_vt : Bool) (s : State) : Outcome :=
  if runFits ra nsm1 && runFits rb npm1 then endCommand (.p rd) s (pmsmRule rd ra rb nsm1 npm1 s)
  else illegalCommand s

end Sys2Proof.Machine
end

