-- ==== Sys2Proof/Machine/PointOps.lean ====
section
/-!
DEFINITION. The point family (`42_point.md` R150 to R155): PIDENT PADD PDBL PNEG PSMUL PEQ.
-/

namespace Sys2Proof.Machine

/-- `42_point.md` R150. -/
def execPident (rd : PReg) (s : State) : Outcome :=
  endCommand (.p rd) s (.ok (s.setP rd (some pointIdentity)))

/-- `42_point.md` R151. -/
def execPadd (rd ra rb : PReg) (s : State) : Outcome :=
  endCommand (.p rd) s (rule2 (s.getP ra) (s.getP rb) fun a b => s.setP rd (some (pointAdd a b)))

/-- `42_point.md` R152. -/
def execPdbl (rd ra : PReg) (s : State) : Outcome := pointUnary pointDouble rd ra s

/-- `42_point.md` R153. -/
def execPneg (rd ra : PReg) (s : State) : Outcome := pointUnary pointNeg rd ra s

/-- `42_point.md` R154. `vt` selects a timing policy and never the result (`30_encoding.md` R75; log entry 16). -/
def execPsmul (rd : PReg) (ra : SReg) (rb : PReg) (_vt : Bool) (s : State) : Outcome :=
  endCommand (.p rd) s (rule2 (s.getS ra) (s.getP rb) fun k a => s.setP rd (some (pointMul k.val a)))

/-- `42_point.md` R155: no destination register; equal or not, the code is 0x00. -/
def execPeq (ra rb : PReg) (s : State) : Outcome :=
  endCommand .none s (rule2 (s.getP ra) (s.getP rb) fun a b => s.setFlag (flagOfEqual a b))

end Sys2Proof.Machine
end

