-- ==== Sys2Proof/Machine/Scalar.lean ====
section
/-!
DEFINITION. The scalar family (`41_scalar.md` R120 to R125): SADD SMUL SZERO SONE SLD SST.
-/

namespace Sys2Proof.Machine

/-- `41_scalar.md` R120. -/
def execSadd (rd ra rb : SReg) (s : State) : Outcome := scalarBinary zlAdd rd ra rb s

/-- `41_scalar.md` R121. -/
def execSmul (rd ra rb : SReg) (s : State) : Outcome := scalarBinary zlMul rd ra rb s

/-- `41_scalar.md` R122. -/
def execSzero (rd : SReg) (s : State) : Outcome := scalarConst (toZl 0) rd s

/-- `41_scalar.md` R123. -/
def execSone (rd : SReg) (s : State) : Outcome := scalarConst (toZl 1) rd s

/-- `41_scalar.md` R124. -/
def execSld (rd : SReg) (slot : Slot) (s : State) : Outcome :=
  loadSlot (.s rd) zlDecode (fun s v => s.setS rd (some v)) slot s

/-- `41_scalar.md` R125. -/
def execSst (slot : Slot) (ra : SReg) (s : State) : Outcome := storeSlot (s.getS ra) Fin.val slot s

end Sys2Proof.Machine
end

