-- ==== Sys2Proof/Machine/Dispatch.lean ====
section
/-!
DEFINITION. The meaning of every command, one arm per row of the opcode table (`30_encoding.md` R73).
-/

namespace Sys2Proof.Machine

def exec (i : Instr) (s : State) : Host.Outcome State Fault Refusal :=
  match i with
  | .fadd rd ra rb => Sys2Proof.Machine.execFadd rd ra rb s
  | .fsub rd ra rb => Sys2Proof.Machine.execFsub rd ra rb s
  | .fneg rd ra => Sys2Proof.Machine.execFneg rd ra s
  | .fmul rd ra rb => Sys2Proof.Machine.execFmul rd ra rb s
  | .fsqr rd ra => Sys2Proof.Machine.execFsqr rd ra s
  | .finv rd ra => Sys2Proof.Machine.execFinv rd ra s
  | .fisqrt rd ra => Sys2Proof.Machine.execFisqrt rd ra s
  | .fsel rd ra rb => Sys2Proof.Machine.execFsel rd ra rb s
  | .fld rd slot => Sys2Proof.Machine.execFld rd slot s
  | .fst slot ra => Sys2Proof.Machine.execFst slot ra s
  | .sadd rd ra rb => Sys2Proof.Machine.execSadd rd ra rb s
  | .smul rd ra rb => Sys2Proof.Machine.execSmul rd ra rb s
  | .szero rd => Sys2Proof.Machine.execSzero rd s
  | .sone rd => Sys2Proof.Machine.execSone rd s
  | .sld rd slot => Sys2Proof.Machine.execSld rd slot s
  | .sst slot ra => Sys2Proof.Machine.execSst slot ra s
  | .pident rd => Sys2Proof.Machine.execPident rd s
  | .padd rd ra rb => Sys2Proof.Machine.execPadd rd ra rb s
  | .pdbl rd ra => Sys2Proof.Machine.execPdbl rd ra s
  | .pneg rd ra => Sys2Proof.Machine.execPneg rd ra s
  | .psmul rd ra rb vt => Sys2Proof.Machine.execPsmul rd ra rb vt s
  | .peq ra rb => Sys2Proof.Machine.execPeq ra rb s
  | .pdec rd slot => Sys2Proof.Machine.execPdec rd slot s
  | .penc slot ra => Sys2Proof.Machine.execPenc slot ra s
  | .pmsm rd ra rb nsm1 npm1 vt => Sys2Proof.Machine.execPmsm rd ra rb nsm1 npm1 vt s

end Sys2Proof.Machine
end

