-- ==== Sys2Proof/Machine/HostWindow.lean ====
section
/-!
DEFINITION. The host window (`10_state.md` R26 to R30, R34; `20_memory.md` R50 to R57, R65): what one host access does, and
`Execute` (`60_exceptions.md` R204), performed whole by a host write to CMD. Offsets are from the window base, which the
platform chooses (`20_memory.md` R63; log entry 12).
-/

namespace Sys2Proof.Machine

/-! The window's offsets (`10_state.md` R34). -/

def cmdOffset : Nat := 0x000

def statusOffset : Nat := 0x004

def flagOffset : Nat := 0x008

def resetOffset : Nat := 0x00C

def bufOffset : Nat := 0x400

/-- `Execute(w)` of `60_exceptions.md` R204. -/
def execute (w : Word) (s : State) : Outcome :=
  match decode w with
  | .error _ => illegalCommand s
  | .ok i => exec i s

/-- The reset of `70_reset_and_hazards.md` R230: every piece of engine state takes its value of `10_state.md` R36. The
accesses the host has yet to make are the host's and stay. -/
def resetEngine (s : State) : State := { State.reset with pending := s.pending }

/-- A host access of BUF that `20_memory.md` R53 allows: 1, 2 or 4 bytes, naturally aligned, inside BUF. -/
def isBufAccess (offset width : Nat) : Bool :=
  (decide (width = 1) || decide (width = 2) || decide (width = 4)) && decide (offset % width = 0) &&
    decide (bufOffset ≤ offset) && decide (offset + width ≤ bufOffset + Config.bufSize)

/-- A host access of a control register that `20_memory.md` R54 allows: 4 bytes, at the register's offset. -/
def isControlAccess (offset width : Nat) : Bool :=
  decide (width = 4) && (decide (offset = cmdOffset) || decide (offset = statusOffset) || decide (offset = flagOffset) ||
    decide (offset = resetOffset))

/-- Every access that `20_memory.md` R55 does not reserve (R62). -/
def isPermitted (offset width : Nat) : Bool := isBufAccess offset width || isControlAccess offset width

/-- What a permitted host read gives back: BUF bytes little-endian (`20_memory.md` R51), STATUS, FLAG, and 0 for CMD and
RESET (`10_state.md` R26 to R29). No read has a side effect (`20_memory.md` R56). -/
def hostReadValue (offset width : Nat) (s : State) : Word :=
  if isBufAccess offset width then BitVec.ofNat 32 (fromLE (memRead s.buf (offset - bufOffset) width))
  else if offset = statusOffset then statusWord s
  else if offset = flagOffset then flagWord s
  else 0#32

/-- A permitted host write: BUF bytes little-endian, a command, FLAG, a reset; STATUS ignores it (`10_state.md` R26 to R29,
`20_memory.md` R53, R54). -/
def hostWrite (offset width : Nat) (value : Word) (s : State) : Outcome :=
  if isBufAccess offset width then
    .next { s with buf := memWrite s.buf (offset - bufOffset) (leBytes width value.toNat) }
  else if offset = cmdOffset then execute value s
  else if offset = flagOffset then .next (s.setFlag (flagOfWord value))
  else if offset = resetOffset then .next (if value.getLsbD 0 then resetEngine s else s)
  else .next s

/-- One host access or hardware reset, whole (`20_memory.md` R57), on a state in which it is no longer pending. A reserved
access is refused (`20_memory.md` R55). -/
def perform (e : HostEvent) (s : State) : Outcome :=
  match e with
  | .read offset width =>
    if isPermitted offset width then .next { s with response := some (hostReadValue offset width s) }
    else .refused (.reservedAccess offset width)
  | .write offset width value =>
    if isPermitted offset width then hostWrite offset width value { s with response := none }
    else .refused (.reservedAccess offset width)
  | .hardwareReset => .next (resetEngine s)

end Sys2Proof.Machine
end

