-- ==== Sys2Proof/Machine/Step.lean ====
section
/-!
DEFINITION. One step of the machine: the next host access, in the order the host issues them (`20_memory.md` R57). FPE25519
has no program counter and fetches nothing (`10_state.md` R31): the host's writes to CMD are the program. With no access
pending the engine "takes no step on its own" (R33) and the state stays (log entry 9). There is one host (log entry 17).
-/

namespace Sys2Proof.Machine

def step (s : State) : Host.Outcome State Fault Refusal :=
  match s.pending with
  | [] => .next s
  | e :: rest => perform e { s with pending := rest }

/-- `s` with the host's write of a command word to CMD as its next access (log entry 1). -/
def State.withFetchWord (s : State) (nbits w : Nat) : State :=
  { s with pending := .write cmdOffset 4 (tableWord nbits w) :: s.pending }

end Sys2Proof.Machine
end

