-- ==== Sys2Proof/Safety.lean ====
section
/-!
DEFINITION. The terms in which claims are made: the read and write table of the commands (`10_state.md` R35), the result
codes each command can end with (`60_exceptions.md` R200, R201), the machine's invariant, and what a permitted host does.
-/

namespace Sys2Proof.Machine

/-- The word of `i` has the format `fmt` and the opcode `op` (`30_encoding.md` R72, R73), and decodes to `i`. -/
def HasForm (i : Instr) (fmt : Format) (op : Nat) : Prop :=
  encode i &&& formatMask fmt = BitVec.ofNat 32 op ∧ decode (encode i) = .ok i

/-- The destination register of a command (`10_state.md` R35, column "writes register"). -/
def destOf : Instr → Dest
  | .fadd rd _ _ => .f rd
  | .fsub rd _ _ => .f rd
  | .fneg rd _ => .f rd
  | .fmul rd _ _ => .f rd
  | .fsqr rd _ => .f rd
  | .finv rd _ => .f rd
  | .fisqrt rd _ => .f rd
  | .fsel rd _ _ => .f rd
  | .fld rd _ => .f rd
  | .fst _ _ => .none
  | .sadd rd _ _ => .s rd
  | .smul rd _ _ => .s rd
  | .szero rd => .s rd
  | .sone rd => .s rd
  | .sld rd _ => .s rd
  | .sst _ _ => .none
  | .pident rd => .p rd
  | .padd rd _ _ => .p rd
  | .pdbl rd _ => .p rd
  | .pneg rd _ => .p rd
  | .psmul rd _ _ _ => .p rd
  | .peq _ _ => .none
  | .pdec rd _ => .p rd
  | .penc _ _ => .none
  | .pmsm rd _ _ _ _ _ => .p rd

/-- The slot a command writes (`10_state.md` R35, column "writes"): FST, SST and PENC only. -/
def storeSlotOf : Instr → Option Slot
  | .fst slot _ => some slot
  | .sst slot _ => some slot
  | .penc slot _ => some slot
  | .fadd _ _ _ | .fsub _ _ _ | .fneg _ _ | .fmul _ _ _ | .fsqr _ _ | .finv _ _ | .fisqrt _ _ | .fsel _ _ _ | .fld _ _ => none
  | .sadd _ _ _ | .smul _ _ _ | .szero _ | .sone _ | .sld _ _ => none
  | .pident _ | .padd _ _ _ | .pdbl _ _ | .pneg _ _ | .psmul _ _ _ _ | .peq _ _ | .pdec _ _ | .pmsm _ _ _ _ _ _ => none

/-- The commands that write FLAG (`10_state.md` R25, R35): FISQRT and PEQ only. -/
def writesFlag : Instr → Bool
  | .fisqrt _ _ => true
  | .peq _ _ => true
  | .fadd _ _ _ | .fsub _ _ _ | .fneg _ _ | .fmul _ _ _ | .fsqr _ _ | .finv _ _ | .fsel _ _ _ | .fld _ _ | .fst _ _ => false
  | .sadd _ _ _ | .smul _ _ _ | .szero _ | .sone _ | .sld _ _ | .sst _ _ => false
  | .pident _ | .padd _ _ _ | .pdbl _ _ | .pneg _ _ | .psmul _ _ _ _ | .pdec _ _ | .penc _ _ | .pmsm _ _ _ _ _ _ => false

/-- All registers of a PMSM run hold a value (`44_msm.md` R190). -/
def runValid {α : Type} (file : Vector (Option α) Config.nReg) (first m1 : Nat) : Bool :=
  (List.range (m1 + 1)).all fun j => file[first + j]?.join.isSome

/-- No source register of the command is NONE (`10_state.md` R35, column "reads registers"; `60_exceptions.md` R204). -/
def sourcesValid (i : Instr) (s : State) : Bool :=
  match i with
  | .fadd _ ra rb => (s.getF ra).isSome && (s.getF rb).isSome
  | .fsub _ ra rb => (s.getF ra).isSome && (s.getF rb).isSome
  | .fneg _ ra => (s.getF ra).isSome
  | .fmul _ ra rb => (s.getF ra).isSome && (s.getF rb).isSome
  | .fsqr _ ra => (s.getF ra).isSome
  | .finv _ ra => (s.getF ra).isSome
  | .fisqrt _ ra => (s.getF ra).isSome
  | .fsel _ ra rb => (s.getF ra).isSome && (s.getF rb).isSome
  | .fld _ _ => true
  | .fst _ ra => (s.getF ra).isSome
  | .sadd _ ra rb => (s.getS ra).isSome && (s.getS rb).isSome
  | .smul _ ra rb => (s.getS ra).isSome && (s.getS rb).isSome
  | .szero _ => true
  | .sone _ => true
  | .sld _ _ => true
  | .sst _ ra => (s.getS ra).isSome
  | .pident _ => true
  | .padd _ ra rb => (s.getP ra).isSome && (s.getP rb).isSome
  | .pdbl _ ra => (s.getP ra).isSome
  | .pneg _ ra => (s.getP ra).isSome
  | .psmul _ ra rb _ => (s.getS ra).isSome && (s.getP rb).isSome
  | .peq ra rb => (s.getP ra).isSome && (s.getP rb).isSome
  | .pdec _ _ => true
  | .penc _ ra => (s.getP ra).isSome
  | .pmsm _ ra rb nsm1 npm1 _ => runValid s.sReg ra.val nsm1.val && runValid s.pReg rb.val npm1.val

/-- The command is a PMSM with unequal counts (`44_msm.md` R190, `60_exceptions.md` R204). -/
def countsDiffer : Instr → Bool
  | .pmsm _ _ _ nsm1 npm1 _ => decide (nsm1 ≠ npm1)
  | .fadd _ _ _ | .fsub _ _ _ | .fneg _ _ | .fmul _ _ _ | .fsqr _ _ | .finv _ _ | .fisqrt _ _ | .fsel _ _ _ => false
  | .fld _ _ | .fst _ _ | .sadd _ _ _ | .smul _ _ _ | .szero _ | .sone _ | .sld _ _ | .sst _ _ => false
  | .pident _ | .padd _ _ _ | .pdbl _ _ | .pneg _ _ | .psmul _ _ _ _ | .peq _ _ | .pdec _ _ | .penc _ _ => false

/-- The codes a well-formed command can end with (`60_exceptions.md` R200, column "raised by"; R201). -/
def codesOf : Instr → List ResultCode
  | .fadd _ _ _ | .fsub _ _ _ | .fneg _ _ | .fmul _ _ _ | .fsqr _ _ | .fisqrt _ _ | .fsel _ _ _ => [.ok, .invalidOperand]
  | .finv _ _ => [.ok, .invalidOperand, .undefinedInverse]
  | .fld _ _ => [.ok, .nonCanonicalEncoding]
  | .fst _ _ => [.ok, .invalidOperand]
  | .sadd _ _ _ | .smul _ _ _ | .sst _ _ => [.ok, .invalidOperand]
  | .szero _ | .sone _ => [.ok]
  | .sld _ _ => [.ok, .nonCanonicalEncoding]
  | .pident _ => [.ok]
  | .padd _ _ _ | .pdbl _ _ | .pneg _ _ | .psmul _ _ _ _ | .peq _ _ | .penc _ _ => [.ok, .invalidOperand]
  | .pdec _ _ => [.ok, .nonCanonicalEncoding, .pointDecompressionFailure]
  | .pmsm _ _ _ _ _ _ => [.ok, .invalidOperand, .lengthMismatch]

/-- The two states give the command the same inputs: the source registers, slot and FLAG it reads (`00_scope.md` R5,
`10_state.md` R35). -/
def SameInputs (i : Instr) (s t : State) : Prop :=
  match i with
  | .fadd _ ra rb => s.getF ra = t.getF ra ∧ s.getF rb = t.getF rb
  | .fsub _ ra rb => s.getF ra = t.getF ra ∧ s.getF rb = t.getF rb
  | .fneg _ ra => s.getF ra = t.getF ra
  | .fmul _ ra rb => s.getF ra = t.getF ra ∧ s.getF rb = t.getF rb
  | .fsqr _ ra => s.getF ra = t.getF ra
  | .finv _ ra => s.getF ra = t.getF ra
  | .fisqrt _ ra => s.getF ra = t.getF ra
  | .fsel _ ra rb => s.getF ra = t.getF ra ∧ s.getF rb = t.getF rb ∧ s.flag = t.flag
  | .fld _ slot => bufRead s.buf slot = bufRead t.buf slot
  | .fst _ ra => s.getF ra = t.getF ra
  | .sadd _ ra rb => s.getS ra = t.getS ra ∧ s.getS rb = t.getS rb
  | .smul _ ra rb => s.getS ra = t.getS ra ∧ s.getS rb = t.getS rb
  | .szero _ => True
  | .sone _ => True
  | .sld _ slot => bufRead s.buf slot = bufRead t.buf slot
  | .sst _ ra => s.getS ra = t.getS ra
  | .pident _ => True
  | .padd _ ra rb => s.getP ra = t.getP ra ∧ s.getP rb = t.getP rb
  | .pdbl _ ra => s.getP ra = t.getP ra
  | .pneg _ ra => s.getP ra = t.getP ra
  | .psmul _ ra rb _ => s.getS ra = t.getS ra ∧ s.getP rb = t.getP rb
  | .peq ra rb => s.getP ra = t.getP ra ∧ s.getP rb = t.getP rb
  | .pdec _ slot => bufRead s.buf slot = bufRead t.buf slot
  | .penc _ ra => s.getP ra = t.getP ra
  | .pmsm _ ra rb nsm1 npm1 _ =>
    (∀ j, j ≤ nsm1.val → s.sReg[ra.val + j]? = t.sReg[ra.val + j]?) ∧
      (∀ j, j ≤ npm1.val → s.pReg[rb.val + j]? = t.pReg[rb.val + j]?)

/-- The destination `d` holds the same in both states. -/
def SameDest (d : Dest) (s t : State) : Prop :=
  match d with
  | .none => True
  | .f r => s.getF r = t.getF r
  | .s r => s.getS r = t.getS r
  | .p r => s.getP r = t.getP r

/-- The destination `d` is NONE in `s`, where there is a destination. -/
def DestIsNone (d : Dest) (s : State) : Prop :=
  match d with
  | .none => True
  | .f r => s.getF r = Option.none
  | .s r => s.getS r = Option.none
  | .p r => s.getP r = Option.none

/-- Slot `k` of BUF holds the 32-byte little-endian encoding of `n` (`00_scope.md` R14, `20_memory.md` R51). -/
def SlotHolds (m : Memory) (k : Slot) (n : Nat) : Prop :=
  ∀ j, j < 32 → (memByte m (32 * k.val + j)).toNat = n / 256 ^ j % 256

/-- Q 0 ⊕ Q 1 ⊕ … ⊕ Q m (`44_msm.md` R190, R191). -/
def pointFold (Q : Nat → Point) : Nat → Point
  | 0 => Q 0
  | m + 1 => pointAdd (pointFold Q m) (Q (m + 1))

/-! ## The invariant of the machine -/

/-- Every point register that holds a value holds a point of E (`10_state.md` R22). -/
def State.PointsOnCurve (s : State) : Prop := ∀ (r : PReg) (A : Point), s.getP r = some A → onCurve A = true

/-- A nonzero ERR has set STICKY (`10_state.md` R26). -/
def State.StatusConsistent (s : State) : Prop := s.err ≠ .ok → s.sticky = true

/-- What every step keeps: BUF in canonical form, points on the curve, STATUS consistent. -/
structure State.Inv (s : State) : Prop where
  bufWf : s.buf.wf = true
  points : s.PointsOnCurve
  status : s.StatusConsistent

/-! ## The host -/

/-- A move the host may make (`20_memory.md` R53 to R55, R62, R65). -/
def HostEvent.permitted : HostEvent → Bool
  | .read offset width => isPermitted offset width
  | .write offset width _ => isPermitted offset width
  | .hardwareReset => true

/-- The event resets the engine: a hardware reset, or a write of RESET with bit 0 = 1 (`70_reset_and_hazards.md` R230). -/
def HostEvent.resets : HostEvent → Bool
  | .read _ _ => false
  | .write offset width value => isControlAccess offset width && decide (offset = resetOffset) && value.getLsbD 0
  | .hardwareReset => true

end Sys2Proof.Machine
end

