-- ==== Sys2Proof/Certificates/Slice0/Obligations.lean ====
section
/-!
DEFINITION. The statements for the provers. Each formalises rules of spec/, named in its docstring.
-/

open Sys2Proof Sys2Proof.Machine Sys2Proof.Config

/-! ## Encoding (`30_encoding.md`) -/

/-- R73, R74, R79: decoding the word of a well-formed command gives the command back, for every operand value. -/
def Obligations.DecodeOfEncode : Prop :=
  ∀ i : Instr, i.wellFormed = true → decode (encode i) = .ok i

/-- R74: a word that decodes is the word of the command it decodes to, and that command is well formed. So two words never
decode to the same command. -/
def Obligations.DecodedWordIsTheEncoding : Prop :=
  ∀ (w : Word) (i : Instr), decode w = .ok i → i.wellFormed = true ∧ encode i = w

/-- Words written out in `96_test_vectors_derived.md` section 2.1 decode to the commands they are listed with, one or more
per family. -/
def Obligations.ListedWordsDecode : Prop :=
  decode 0x00021310#32 = .ok (.fadd 3 1 2) ∧ decode 0x000F0F11#32 = .ok (.fsub 15 0 15) ∧
  decode 0x001F0F18#32 = .ok (.fld 15 31) ∧ decode 0x001FF019#32 = .ok (.fst 31 15) ∧
  decode 0x00010221#32 = .ok (.smul 2 0 1) ∧ decode 0x00021029#32 = .ok (.sst 2 1) ∧
  decode 0x10001234#32 = .ok (.psmul 2 1 0 true) ∧ decode 0x00021035#32 = .ok (.peq 1 2) ∧
  decode 0x00100F38#32 = .ok (.pdec 15 16) ∧ decode 0x00041039#32 = .ok (.penc 4 1) ∧
  decode 0x07700840#32 = .ok (.pmsm 8 0 0 7 7 false) ∧ decode 0x1FF00040#32 = .ok (.pmsm 0 0 0 15 15 true)

/-- R78, R204: a word that is no well-formed command's word ends with IllegalCommand and changes nothing but STATUS; and
R27: so does the step that serves the host's write of it to CMD. The access leaves `pending` and no `response` stands, the
model's own fields (log entries 1 and 2). -/
def Obligations.IllegalWordChangesOnlyStatus : Prop :=
  ∀ (s : State) (w : Word), (∀ i : Instr, i.wellFormed = true → encode i ≠ w) →
    execute w s = .next { s with err := .illegalCommand, sticky := true } ∧
    ∀ rest : List HostEvent, s.pending = .write 0x000 4 w :: rest →
      step s = .next { s with pending := rest, response := none, err := .illegalCommand, sticky := true }

/-- R200: the numbers of the seven result codes. -/
def Obligations.CodeNumbers : Prop :=
  codeByte .ok = 0x00#8 ∧ codeByte .nonCanonicalEncoding = 0x01#8 ∧ codeByte .pointDecompressionFailure = 0x02#8 ∧
  codeByte .undefinedInverse = 0x03#8 ∧ codeByte .lengthMismatch = 0x04#8 ∧ codeByte .illegalCommand = 0x80#8 ∧
  codeByte .invalidOperand = 0x81#8

/-! ## Steps, reset and the host window (`10_state.md`, `20_memory.md`, `70_reset_and_hazards.md`) -/

/-- R27, R57: a host write of a word to CMD runs the decoded command on the state left by the accesses before it, whole;
and a word placed by `withFetchWord` is the next one run. That the host's accesses wait in `pending` and that `response` holds
the last answer is the model's choice (log entries 1 and 2). -/
def Obligations.StepRunsTheDecodedCommand : Prop :=
  (∀ (s : State) (w : Word) (i : Instr) (rest : List HostEvent), s.pending = .write 0x000 4 w :: rest →
    decode w = .ok i → step s = exec i { s with pending := rest, response := none }) ∧
  (∀ (s : State) (w : Word) (i : Instr), decode w = .ok i →
    step (s.withFetchWord 32 w.toNat) = exec i { s with response := none })

/-- R33: between host accesses nothing changes. That a step is taken at all with no access pending, and that it stays, is the
model's choice (log entry 9). -/
def Obligations.NoAccessNoChange : Prop :=
  ∀ s : State, s.pending = [] → step s = .next s

/-- R36: the reset state. -/
def Obligations.ResetStateIsAsSpecified : Prop :=
  (∀ r : FReg, State.reset.getF r = none) ∧ (∀ r : SReg, State.reset.getS r = none) ∧
  (∀ r : PReg, State.reset.getP r = none) ∧ State.reset.flag = false ∧ codeByte State.reset.err = 0x00#8 ∧
  State.reset.sticky = false ∧ ∀ a : Nat, memByte State.reset.buf a = 0x00#8

/-- R28, R29, R26: host writes to the control registers other than CMD. Bit 0 of a write to FLAG is FLAG; a write to STATUS
is ignored; a write to RESET resets the engine where its bit 0 is 1 and does nothing where it is 0. That a write answers
with no `response` is the model's choice (log entry 2), and that the host's later accesses survive a reset is too (log
entry 11). -/
def Obligations.ControlRegisterWrites : Prop :=
  ∀ (s : State) (v : Word) (rest : List HostEvent),
    (s.pending = .write 0x008 4 v :: rest →
      step s = .next { s with pending := rest, response := none, flag := v.getLsbD 0 }) ∧
    (s.pending = .write 0x004 4 v :: rest → step s = .next { s with pending := rest, response := none }) ∧
    (s.pending = .write 0x00C 4 v :: rest → v.getLsbD 0 = true → step s = .next { State.reset with pending := rest }) ∧
    (s.pending = .write 0x00C 4 v :: rest → v.getLsbD 0 = false →
      step s = .next { s with pending := rest, response := none })

/-- R230: a hardware reset between accesses leaves the reset state, with the host's later accesses still to come (that they
survive it is the model's choice, log entry 11). -/
def Obligations.HardwareResetIsReset : Prop :=
  ∀ (s : State) (rest : List HostEvent), s.pending = .hardwareReset :: rest →
    step s = .next { State.reset with pending := rest }

/-- R26, R27, R28, R29, R56: host reads of the control registers give STATUS (ERR in bits 7:0, STICKY in bit 8, the rest 0),
FLAG in bit 0, and 0 for CMD and RESET, and change nothing of the engine. The answer stands in the model's field `response`
(log entry 2). R56 is the spec's own inference ("[derived: from rules R53, R54]"). -/
def Obligations.ControlRegisterReads : Prop :=
  ∀ (s : State) (rest : List HostEvent),
    (s.pending = .read 0x004 4 :: rest →
      ∃ w : Word, w.toNat = (codeByte s.err).toNat + (if s.sticky then 256 else 0) ∧
        step s = .next { s with pending := rest, response := some w }) ∧
    (s.pending = .read 0x008 4 :: rest →
      ∃ w : Word, w.toNat = (if s.flag then 1 else 0) ∧ step s = .next { s with pending := rest, response := some w }) ∧
    (s.pending = .read 0x000 4 :: rest → step s = .next { s with pending := rest, response := some 0#32 }) ∧
    (s.pending = .read 0x00C 4 :: rest → step s = .next { s with pending := rest, response := some 0#32 })

/-- R51, R53, R56: a host read of 1, 2 or 4 aligned bytes of BUF gives those bytes, little-endian, and changes nothing. The
answer stands in the model's field `response` (log entry 2). R56 is the spec's own inference ("[derived: from rules R53,
R54]"). -/
def Obligations.BufReadIsLittleEndian : Prop :=
  ∀ (s : State) (rest : List HostEvent) (off width : Nat), (width = 1 ∨ width = 2 ∨ width = 4) → off % width = 0 →
    0x400 ≤ off → off + width ≤ 0x800 → s.pending = .read off width :: rest →
    ∃ w : Word, w.toNat < 256 ^ width ∧
      (∀ j, j < width → w.toNat / 256 ^ j % 256 = (memByte s.buf (off - 0x400 + j)).toNat) ∧
      step s = .next { s with pending := rest, response := some w }

/-- R51, R53, R64: a host write of 1, 2 or 4 aligned bytes of BUF changes exactly those bytes, to the written value's bytes,
little-endian. That the low bytes of a value wider than the access count is the model's choice (log entry 15), and so is
that a write answers with no `response` (log entry 2). R64 is the spec's own inference ("[derived: from rules R50, R53,
R57]"). -/
def Obligations.BufWriteChangesExactlyItsBytes : Prop :=
  ∀ (s : State) (rest : List HostEvent) (off width : Nat) (v : Word), s.buf.wf = true →
    (width = 1 ∨ width = 2 ∨ width = 4) → off % width = 0 → 0x400 ≤ off → off + width ≤ 0x800 →
    s.pending = .write off width v :: rest →
    ∃ t : State, step s = .next t ∧ t = { s with pending := rest, response := none, buf := t.buf } ∧
      (∀ j, j < width → (memByte t.buf (off - 0x400 + j)).toNat = v.toNat / 256 ^ j % 256) ∧
      (∀ a, a < off - 0x400 ∨ off - 0x400 + width ≤ a → memByte t.buf a = memByte s.buf a)

/-- R53, R54, R55: the host's permitted accesses are 1, 2 or 4 aligned bytes of BUF and 4 bytes at the four control
registers; each gives a next state, and every other access is refused. That widths other than 1, 2 and 4 (0 and 3) fall
under the refusal is the model's reading (log entry 10). -/
def Obligations.ReservedAccessIsRefused : Prop :=
  ∀ (s : State) (rest : List HostEvent) (off width : Nat) (v : Word),
    (((width = 1 ∨ width = 2 ∨ width = 4) ∧ off % width = 0 ∧ 0x400 ≤ off ∧ off + width ≤ 0x800) ∨
      (width = 4 ∧ (off = 0x000 ∨ off = 0x004 ∨ off = 0x008 ∨ off = 0x00C)) →
      (s.pending = .read off width :: rest → ∃ t, step s = .next t) ∧
      (s.pending = .write off width v :: rest → ∃ t, step s = .next t)) ∧
    (¬ (((width = 1 ∨ width = 2 ∨ width = 4) ∧ off % width = 0 ∧ 0x400 ≤ off ∧ off + width ≤ 0x800) ∨
      (width = 4 ∧ (off = 0x000 ∨ off = 0x004 ∨ off = 0x008 ∨ off = 0x00C))) →
      (s.pending = .read off width :: rest → step s = .refused (.reservedAccess off width)) ∧
      (s.pending = .write off width v :: rest → step s = .refused (.reservedAccess off width)))

/-- R57, R202, R207, R245: a host whose pending accesses are all permitted has them served one a step, in its order, and no run of
any length stops: after n steps the first n accesses are gone from `pending` and no others. That accesses wait in `pending`
is the model's choice (log entry 1); so are the idle steps a run takes once none is left (log entry 9) and that the accesses
behind a reset survive it (log entry 11). R207 is the spec's own inference ("[derived: from rule R204]"). -/
def Obligations.PermittedRunsNeverStop : Prop :=
  ∀ (n : Nat) (s : State), (∀ e ∈ s.pending, e.permitted = true) →
    ∃ t : State, Host.Core.run core n s = .next t ∧ t.pending = s.pending.drop n

/-- R26: only reset clears STICKY: every other step from a state with STICKY 1 leaves it 1. -/
def Obligations.OnlyResetClearsSticky : Prop :=
  ∀ (s t : State) (e : HostEvent) (rest : List HostEvent), s.pending = e :: rest → e.resets = false →
    s.sticky = true → step s = .next t → t.sticky = true

/-! ## The field family (`40_field.md`) -/

/-- R100. -/
def Obligations.FaddResult : Prop :=
  ∀ (s : State) (rd ra rb : FReg), HasForm (.fadd rd ra rb) .r3 0x10 ∧
    ∀ a b : Fp, s.getF ra = some a → s.getF rb = some b →
      exec (.fadd rd ra rb) s =
        .next ((s.setF rd (some ⟨(a.val + b.val) % pMod, Nat.mod_lt _ pMod_pos⟩)).setStatus .ok)

/-- R101. -/
def Obligations.FsubResult : Prop :=
  ∀ (s : State) (rd ra rb : FReg), HasForm (.fsub rd ra rb) .r3 0x11 ∧
    ∀ a b : Fp, s.getF ra = some a → s.getF rb = some b →
      ∃ v : Fp, v.val = (if b.val ≤ a.val then a.val - b.val else a.val + pMod - b.val) ∧
        (v.val : Int) = ((a.val : Int) - (b.val : Int)) % (pMod : Int) ∧
        exec (.fsub rd ra rb) s = .next ((s.setF rd (some v)).setStatus .ok)

/-- R102, with its corner cases: 0 for 0, twice is the identity, the sign flips for a ≠ 0. The spec marks this meaning as its
own inference ("[derived: from rule R106 and the word "negate"]"). -/
def Obligations.FnegResult : Prop :=
  ∀ (s : State) (rd ra : FReg), HasForm (.fneg rd ra) .r2 0x12 ∧
    ∀ a : Fp, s.getF ra = some a →
      ∃ v : Fp, v.val = (if a.val = 0 then 0 else pMod - a.val) ∧ (pMod - v.val) % pMod = a.val ∧
        (a.val ≠ 0 → v.val % 2 = 1 - a.val % 2) ∧
        exec (.fneg rd ra) s = .next ((s.setF rd (some v)).setStatus .ok)

/-- R103, with its corner case that the product is 0 only if an operand is. -/
def Obligations.FmulResult : Prop :=
  ∀ (s : State) (rd ra rb : FReg), HasForm (.fmul rd ra rb) .r3 0x13 ∧
    ∀ a b : Fp, s.getF ra = some a → s.getF rb = some b →
      ∃ v : Fp, v.val = a.val * b.val % pMod ∧ (v.val = 0 ↔ a.val = 0 ∨ b.val = 0) ∧
        exec (.fmul rd ra rb) s = .next ((s.setF rd (some v)).setStatus .ok)

/-- R104: the square, identical in result to `FMUL Fd, Fa, Fa`; a and p − a have the same square. -/
def Obligations.FsqrResult : Prop :=
  ∀ (s : State) (rd ra : FReg), HasForm (.fsqr rd ra) .r2 0x14 ∧
    exec (.fsqr rd ra) s = exec (.fmul rd ra ra) s ∧
    ∀ a : Fp, s.getF ra = some a →
      (pMod - a.val) * (pMod - a.val) % pMod = a.val * a.val % pMod ∧
      exec (.fsqr rd ra) s =
        .next ((s.setF rd (some ⟨a.val * a.val % pMod, Nat.mod_lt _ pMod_pos⟩)).setStatus .ok)

/-- R105: for a ≠ 0 the unique inverse mod p, which is a^(p−2) mod p; for 0 UndefinedInverse and NONE. -/
def Obligations.FinvResult : Prop :=
  ∀ (s : State) (rd ra : FReg), HasForm (.finv rd ra) .r2 0x15 ∧
    (∀ a : Fp, s.getF ra = some a → a.val ≠ 0 →
      ∃ v : Fp, a.val * v.val % pMod = 1 ∧ (∀ u : Fp, a.val * u.val % pMod = 1 → u = v) ∧
        v.val = a.val ^ (pMod - 2) % pMod ∧
        exec (.finv rd ra) s = .next ((s.setF rd (some v)).setStatus .ok)) ∧
    (∀ a : Fp, s.getF ra = some a → a.val = 0 →
      exec (.finv rd ra) s = .next ((s.setF rd none).setStatus .undefinedInverse))

/-- R107: for a nonzero square the unique even r with r·r·a = 1, and FLAG 1; for 0 and for a non-square the value 0, and
FLAG 0; code 0x00 in both arms. -/
def Obligations.FisqrtResult : Prop :=
  ∀ (s : State) (rd ra : FReg), HasForm (.fisqrt rd ra) .r2 0x16 ∧
    (∀ a : Fp, s.getF ra = some a → a.val ≠ 0 → (∃ b : Fp, b.val * b.val % pMod = a.val) →
      ∃ r : Fp, r.val * r.val * a.val % pMod = 1 ∧ r.val % 2 = 0 ∧
        (∀ u : Fp, u.val * u.val * a.val % pMod = 1 → u.val % 2 = 0 → u = r) ∧
        exec (.fisqrt rd ra) s = .next (((s.setF rd (some r)).setFlag true).setStatus .ok)) ∧
    (∀ a : Fp, s.getF ra = some a → (a.val = 0 ∨ ¬ ∃ b : Fp, b.val * b.val % pMod = a.val) →
      exec (.fisqrt rd ra) s = .next (((s.setF rd (some ⟨0, pMod_pos⟩)).setFlag false).setStatus .ok))

/-- R108: FLAG 0 selects the first operand, FLAG 1 the second, and both must be valid whichever is selected. -/
def Obligations.FselResult : Prop :=
  ∀ (s : State) (rd ra rb : FReg), HasForm (.fsel rd ra rb) .r3 0x17 ∧
    (∀ a b : Fp, s.getF ra = some a → s.getF rb = some b →
      exec (.fsel rd ra rb) s = .next ((s.setF rd (some (if s.flag then b else a))).setStatus .ok)) ∧
    (s.getF ra = none ∨ s.getF rb = none →
      exec (.fsel rd ra rb) s = .next ((s.setF rd none).setStatus .invalidOperand))

/-- R109: the slot's 256-bit integer if it is below p, NonCanonicalEncoding and NONE if it is not; no reduction. -/
def Obligations.FldResult : Prop :=
  ∀ (s : State) (rd : FReg) (slot : Slot), HasForm (.fld rd slot) .ld 0x18 ∧
    ∀ n : Nat, n < 2 ^ 256 → SlotHolds s.buf slot n →
      (∀ v : Fp, v.val = n → exec (.fld rd slot) s = .next ((s.setF rd (some v)).setStatus .ok)) ∧
      (pMod ≤ n → exec (.fld rd slot) s = .next ((s.setF rd none).setStatus .nonCanonicalEncoding))

/-- R110: the slot's 32 bytes become the canonical little-endian encoding, with byte 31 at most 0x7f, no other byte and
nothing else but ERR changes, and an FLD of the slot gives the value back. -/
def Obligations.FstResult : Prop :=
  ∀ (s : State) (slot : Slot) (ra : FReg), HasForm (.fst slot ra) .st 0x19 ∧
    (∀ a : Fp, s.buf.wf = true → s.getF ra = some a →
      ∃ t : State, exec (.fst slot ra) s = .next t ∧ t = { s with buf := t.buf, err := .ok } ∧
        SlotHolds t.buf slot a.val ∧ (memByte t.buf (32 * slot.val + 31)).toNat ≤ 0x7f ∧
        (∀ x, x < 32 * slot.val ∨ 32 * slot.val + 32 ≤ x → memByte t.buf x = memByte s.buf x) ∧
        ∀ rd : FReg, exec (.fld rd slot) t = .next ((t.setF rd (some a)).setStatus .ok)) ∧
    (s.getF ra = none → exec (.fst slot ra) s = .next (s.setStatus .invalidOperand))

/-! ## The scalar family (`41_scalar.md`) -/

/-- R120. -/
def Obligations.SaddResult : Prop :=
  ∀ (s : State) (rd ra rb : SReg), HasForm (.sadd rd ra rb) .r3 0x20 ∧
    ∀ a b : Zl, s.getS ra = some a → s.getS rb = some b →
      exec (.sadd rd ra rb) s =
        .next ((s.setS rd (some ⟨(a.val + b.val) % lOrd, Nat.mod_lt _ lOrd_pos⟩)).setStatus .ok)

/-- R121, with its corner case that the product is 0 only if an operand is. -/
def Obligations.SmulResult : Prop :=
  ∀ (s : State) (rd ra rb : SReg), HasForm (.smul rd ra rb) .r3 0x21 ∧
    ∀ a b : Zl, s.getS ra = some a → s.getS rb = some b →
      ∃ v : Zl, v.val = a.val * b.val % lOrd ∧ (v.val = 0 ↔ a.val = 0 ∨ b.val = 0) ∧
        exec (.smul rd ra rb) s = .next ((s.setS rd (some v)).setStatus .ok)

/-- R122, R123: the constants 0 and 1, whatever the register held. -/
def Obligations.ScalarConstants : Prop :=
  ∀ (s : State) (rd : SReg), HasForm (.szero rd) .r1 0x22 ∧ HasForm (.sone rd) .r1 0x23 ∧
    ∃ zero one : Zl, zero.val = 0 ∧ one.val = 1 ∧
      exec (.szero rd) s = .next ((s.setS rd (some zero)).setStatus .ok) ∧
      exec (.sone rd) s = .next ((s.setS rd (some one)).setStatus .ok)

/-- R124: the slot's 256-bit integer if it is below L, NonCanonicalEncoding and NONE if it is not; no reduction. -/
def Obligations.SldResult : Prop :=
  ∀ (s : State) (rd : SReg) (slot : Slot), HasForm (.sld rd slot) .ld 0x28 ∧
    ∀ n : Nat, n < 2 ^ 256 → SlotHolds s.buf slot n →
      (∀ v : Zl, v.val = n → exec (.sld rd slot) s = .next ((s.setS rd (some v)).setStatus .ok)) ∧
      (lOrd ≤ n → exec (.sld rd slot) s = .next ((s.setS rd none).setStatus .nonCanonicalEncoding))

/-- R125: as R110 for a scalar register, with byte 31 at most 0x10, and an SLD of the slot gives the value back. -/
def Obligations.SstResult : Prop :=
  ∀ (s : State) (slot : Slot) (ra : SReg), HasForm (.sst slot ra) .st 0x29 ∧
    (∀ a : Zl, s.buf.wf = true → s.getS ra = some a →
      ∃ t : State, exec (.sst slot ra) s = .next t ∧ t = { s with buf := t.buf, err := .ok } ∧
        SlotHolds t.buf slot a.val ∧ (memByte t.buf (32 * slot.val + 31)).toNat ≤ 0x10 ∧
        (∀ x, x < 32 * slot.val ∨ 32 * slot.val + 32 ≤ x → memByte t.buf x = memByte s.buf x) ∧
        ∀ rd : SReg, exec (.sld rd slot) t = .next ((t.setS rd (some a)).setStatus .ok)) ∧
    (s.getS ra = none → exec (.sst slot ra) s = .next (s.setStatus .invalidOperand))

/-! ## The curve and the point family (`42_point.md`) -/

/-- R140: the model's test for membership in E is the curve equation over the integers, reduced mod p. -/
def Obligations.OnCurveIsTheCurveEquation : Prop :=
  ∀ A : Point, onCurve A = true ↔
    (-((A.x.val : Int) ^ 2) + (A.y.val : Int) ^ 2) % (pMod : Int) =
      (1 + (dCurve : Int) * (A.x.val : Int) ^ 2 * (A.y.val : Int) ^ 2) % (pMod : Int)

/-- R143: for points of E neither denominator of the addition law vanishes, the sum satisfies the law of R141 cleared of its
denominators, and it is a point of E. The spec gives both rules "[from general knowledge, not in source]". -/
def Obligations.AdditionIsCompleteAndClosed : Prop :=
  ∀ A B : Point, onCurve A = true → onCurve B = true →
    ∀ t : Int, t = (dCurve : Int) * A.x.val * B.x.val * A.y.val * B.y.val →
      (1 + t) % (pMod : Int) ≠ 0 ∧ (1 - t) % (pMod : Int) ≠ 0 ∧
      (((pointAdd A B).x.val : Int) * (1 + t)) % (pMod : Int) =
        ((A.x.val : Int) * B.y.val + (A.y.val : Int) * B.x.val) % (pMod : Int) ∧
      (((pointAdd A B).y.val : Int) * (1 - t)) % (pMod : Int) =
        ((A.y.val : Int) * B.y.val + (A.x.val : Int) * B.x.val) % (pMod : Int) ∧
      onCurve (pointAdd A B) = true

/-- R142, R145, R144: O and −P are in E, O is neutral on both sides, P ⊕ (−P) = O, and ⊕ is commutative. The spec derives
R142 and R145 from R140 and R141 ("[derived: from rules R140, R141]"). The clauses without a membership premise hold off E
too, where the sum is the model's choice (log entry 18) and the spec says nothing. -/
def Obligations.IdentityInverseCommutativity : Prop :=
  onCurve pointIdentity = true ∧
  (∀ A : Point, pointAdd A pointIdentity = A ∧ pointAdd pointIdentity A = A) ∧
  (∀ A : Point, onCurve A = true → onCurve (pointNeg A) = true ∧ pointAdd A (pointNeg A) = pointIdentity) ∧
  (∀ A B : Point, pointAdd A B = pointAdd B A)

/-- R144: addition on E is associative. The spec gives the law of R141 "[from general knowledge, not in source]". -/
def Obligations.AdditionIsAssociative : Prop :=
  ∀ A B C : Point, onCurve A = true → onCurve B = true → onCurve C = true →
    pointAdd (pointAdd A B) C = pointAdd A (pointAdd B C)

/-- R146: the model's doubling and conditional addition gives the multiple R146 defines by recursion, on every point of E
and for every integer; and R146's consequence [j + k]P = [j]P ⊕ [k]P. The spec marks R146 as its own ("[derived: from
rules R142, R144]"); the doubling method is the model's (log entry 6). -/
def Obligations.MultipleIsRepeatedAddition : Prop :=
  ∀ A : Point, onCurve A = true →
    (∀ k : Nat, pointMul k A = pointMultiple k A) ∧
    (∀ j k : Nat, pointMultiple (j + k) A = pointAdd (pointMultiple j A) (pointMultiple k A))

/-- R150. -/
def Obligations.PidentResult : Prop :=
  ∀ (s : State) (rd : PReg), HasForm (.pident rd) .r1 0x30 ∧
    ∃ O : Point, O.x.val = 0 ∧ O.y.val = 1 ∧ exec (.pident rd) s = .next ((s.setP rd (some O)).setStatus .ok)

/-- R151: the sum, the same for both orders of the operands, with code 0x00 for all operands. For operands off E, which no
run holds, the sum is the model's choice (log entry 18). -/
def Obligations.PaddResult : Prop :=
  ∀ (s : State) (rd ra rb : PReg), HasForm (.padd rd ra rb) .r3 0x31 ∧
    exec (.padd rd ra rb) s = exec (.padd rd rb ra) s ∧
    ∀ A B : Point, s.getP ra = some A → s.getP rb = some B →
      exec (.padd rd ra rb) s = .next ((s.setP rd (some (pointAdd A B))).setStatus .ok)

/-- R152: P ⊕ P, as PADD of the register with itself; on E, in affine terms, x3·(1 + d·x²·y²) = 2·x·y and
y3·(1 − d·x²·y²) = y² + x². That double is P ⊕ P the spec marks "[derived: from rules R141, R143]". The first
equation holds off E too, where the sum is the model's choice (log entry 18). -/
def Obligations.PdblResult : Prop :=
  ∀ (s : State) (rd ra : PReg), HasForm (.pdbl rd ra) .r2 0x32 ∧
    exec (.pdbl rd ra) s = exec (.padd rd ra ra) s ∧
    ∀ A : Point, s.getP ra = some A → onCurve A = true →
      ∃ C : Point,
        ((C.x.val : Int) * (1 + (dCurve : Int) * (A.x.val : Int) ^ 2 * (A.y.val : Int) ^ 2)) % (pMod : Int) =
          (2 * (A.x.val : Int) * A.y.val) % (pMod : Int) ∧
        ((C.y.val : Int) * (1 - (dCurve : Int) * (A.x.val : Int) ^ 2 * (A.y.val : Int) ^ 2)) % (pMod : Int) =
          ((A.y.val : Int) ^ 2 + (A.x.val : Int) ^ 2) % (pMod : Int) ∧
        C = pointAdd A A ∧
        exec (.pdbl rd ra) s = .next ((s.setP rd (some C)).setStatus .ok)

/-- R153: x becomes (p − x) mod p, y stays; twice is the identity. The formula is R145's, which the spec marks "[derived: from
rules R140, R141]". -/
def Obligations.PnegResult : Prop :=
  ∀ (s : State) (rd ra : PReg), HasForm (.pneg rd ra) .r2 0x33 ∧
    ∀ A : Point, s.getP ra = some A →
      ∃ C : Point, C.x.val = (pMod - A.x.val) % pMod ∧ C.y = A.y ∧ (pMod - C.x.val) % pMod = A.x.val ∧
        exec (.pneg rd ra) s = .next ((s.setP rd (some C)).setStatus .ok)

/-- R154: [s]P by R146's recursion, s the integer in the scalar register, for both values of the hint. The spec
marks R146 as its own ("[derived: from rules R142, R144]"). -/
def Obligations.PsmulResult : Prop :=
  ∀ (s : State) (rd : PReg) (ra : SReg) (rb : PReg) (vt : Bool), HasForm (.psmul rd ra rb vt) .sm 0x34 ∧
    ∀ (k : Zl) (A : Point), s.getS ra = some k → s.getP rb = some A → onCurve A = true →
      exec (.psmul rd ra rb vt) s = .next ((s.setP rd (some (pointMultiple k.val A))).setStatus .ok)

/-- R155: FLAG is 1 where both coordinates are equal, else 0; code 0x00 for both; no register is written. -/
def Obligations.PeqResult : Prop :=
  ∀ (s : State) (ra rb : PReg), HasForm (.peq ra rb) .cmp 0x35 ∧
    ∀ A B : Point, s.getP ra = some A → s.getP rb = some B →
      (A.x = B.x ∧ A.y = B.y → exec (.peq ra rb) s = .next ((s.setFlag true).setStatus .ok)) ∧
      (¬ (A.x = B.x ∧ A.y = B.y) → exec (.peq ra rb) s = .next ((s.setFlag false).setStatus .ok))

/-! ## The codec (`43_codec.md`) -/

/-- R175 with R171 to R173 (R172 is the spec's own inference, "[derived: from `00_scope.md` rule R9]"): with y the low 255
bits of the slot and b its bit 255, PDEC succeeds with the point of E whose second coordinate is y and whose first has sign
b, where there is one; else it fails, with NonCanonicalEncoding where y ≥ p and PointDecompressionFailure where y < p. -/
def Obligations.PdecResult : Prop :=
  ∀ (s : State) (rd : PReg) (slot : Slot), HasForm (.pdec rd slot) .ld 0x38 ∧
    ∀ n : Nat, n < 2 ^ 256 → SlotHolds s.buf slot n →
      (pMod ≤ n % 2 ^ 255 → exec (.pdec rd slot) s = .next ((s.setP rd none).setStatus .nonCanonicalEncoding)) ∧
      (∀ A : Point, onCurve A = true → A.y.val = n % 2 ^ 255 → A.x.val % 2 = n / 2 ^ 255 →
        exec (.pdec rd slot) s = .next ((s.setP rd (some A)).setStatus .ok)) ∧
      (n % 2 ^ 255 < pMod →
        (¬ ∃ A : Point, onCurve A = true ∧ A.y.val = n % 2 ^ 255 ∧ A.x.val % 2 = n / 2 ^ 255) →
        exec (.pdec rd slot) s = .next ((s.setP rd none).setStatus .pointDecompressionFailure))

/-- R170, R176: the slot's 32 bytes become the encoding of y + 2^255·sgn(x); no other byte and nothing else but ERR
changes. -/
def Obligations.PencResult : Prop :=
  ∀ (s : State) (slot : Slot) (ra : PReg), HasForm (.penc slot ra) .st 0x39 ∧
    (∀ A : Point, s.buf.wf = true → s.getP ra = some A →
      ∃ t : State, exec (.penc slot ra) s = .next t ∧ t = { s with buf := t.buf, err := .ok } ∧
        SlotHolds t.buf slot (A.y.val + 2 ^ 255 * (A.x.val % 2)) ∧
        (∀ x, x < 32 * slot.val ∨ 32 * slot.val + 32 ≤ x → memByte t.buf x = memByte s.buf x)) ∧
    (s.getP ra = none → exec (.penc slot ra) s = .next (s.setStatus .invalidOperand))

/-- R174: (a) where PDEC of a slot succeeds, PENC of its result writes the slot's own 32 bytes; (b) PDEC of the slot where
PENC put a point of E gives the point back. The spec marks both "[derived: …]" in R174. -/
def Obligations.CodecRoundTrips : Prop :=
  (∀ (s t u : State) (rd : PReg) (k l : Slot), s.buf.wf = true → exec (.pdec rd k) s = .next t → t.err = .ok →
    exec (.penc l rd) t = .next u →
      u.err = .ok ∧ ∀ j, j < 32 → memByte u.buf (32 * l.val + j) = memByte s.buf (32 * k.val + j)) ∧
  (∀ (s t : State) (rd ra : PReg) (k : Slot) (A : Point), s.buf.wf = true → s.getP ra = some A → onCurve A = true →
    exec (.penc k ra) s = .next t → exec (.pdec rd k) t = .next ((t.setP rd (some A)).setStatus .ok))

/-! ## Multiscalar multiplication (`44_msm.md`) -/

/-- R190: LengthMismatch before any register is read; InvalidOperand where a register of either run is NONE; else the sum
[s_0]A_0 ⊕ … ⊕ [s_(n−1)]A_(n−1), for both values of the hint and wherever rd lies. -/
def Obligations.PmsmResult : Prop :=
  ∀ (s : State) (rd : PReg) (ra : SReg) (rb : PReg) (nsm1 npm1 : CountField) (vt : Bool),
    ra.val + nsm1.val ≤ 15 → rb.val + npm1.val ≤ 15 →
      HasForm (.pmsm rd ra rb nsm1 npm1 vt) .v 0x40 ∧
      (nsm1 ≠ npm1 → exec (.pmsm rd ra rb nsm1 npm1 vt) s = .next ((s.setP rd none).setStatus .lengthMismatch)) ∧
      (nsm1 = npm1 →
        (∃ (j : Nat) (a : SReg) (b : PReg), j ≤ nsm1.val ∧ a.val = ra.val + j ∧ b.val = rb.val + j ∧
          (s.getS a = none ∨ s.getP b = none)) →
        exec (.pmsm rd ra rb nsm1 npm1 vt) s = .next ((s.setP rd none).setStatus .invalidOperand)) ∧
      (nsm1 = npm1 → ∀ (k : Nat → Zl) (A : Nat → Point),
        (∀ (j : Nat) (a : SReg) (b : PReg), j ≤ nsm1.val → a.val = ra.val + j → b.val = rb.val + j →
          s.getS a = some (k j) ∧ s.getP b = some (A j) ∧ onCurve (A j) = true) →
        exec (.pmsm rd ra rb nsm1 npm1 vt) s =
          .next ((s.setP rd (some (pointFold (fun j => pointMultiple (k j).val (A j)) nsm1.val))).setStatus .ok))

/-- R191, with PR6: PMSM gives the fold with ⊕ of what the single PSMUL commands give from the same state; with one pair it
is the PSMUL command. For points off E, which no run holds, sum and multiple are the model's choice (log entries 6 and 18). -/
def Obligations.PmsmIsFoldOfPsmul : Prop :=
  (∀ (s : State) (rd : PReg) (ra : SReg) (rb : PReg) (m : CountField) (vt : Bool) (Q : Nat → Point),
    ra.val + m.val ≤ 15 → rb.val + m.val ≤ 15 →
    (∀ (j : Nat) (a : SReg) (b : PReg), j ≤ m.val → a.val = ra.val + j → b.val = rb.val + j →
      ∃ t, exec (.psmul rd a b vt) s = .next t ∧ t.err = .ok ∧ t.getP rd = some (Q j)) →
    exec (.pmsm rd ra rb m m vt) s = .next ((s.setP rd (some (pointFold Q m.val))).setStatus .ok)) ∧
  (∀ (s : State) (rd : PReg) (ra : SReg) (rb : PReg) (vt : Bool),
    exec (.pmsm rd ra rb 0 0 vt) s = exec (.psmul rd ra rb vt) s)

/-- R75: `vt` never changes any architectural result. PMSM terms that no word decodes to are covered too; what they do is the
model's choice (log entry 8). -/
def Obligations.HintChangesNothing : Prop :=
  (∀ (s : State) (rd : PReg) (ra : SReg) (rb : PReg),
    exec (.psmul rd ra rb true) s = exec (.psmul rd ra rb false) s) ∧
  (∀ (s : State) (rd : PReg) (ra : SReg) (rb : PReg) (nsm1 npm1 : CountField),
    exec (.pmsm rd ra rb nsm1 npm1 true) s = exec (.pmsm rd ra rb nsm1 npm1 false) s)

/-! ## All commands (`10_state.md`, `60_exceptions.md`) -/

/-- R202, R204: a command never stops the machine: on every state it gives a next state. For PMSM terms that no word decodes
to that is the model's choice (log entry 8). -/
def Obligations.CommandsNeverStop : Prop :=
  ∀ (i : Instr) (s : State), ∃ t, exec i s = .next t

/-- R24, R35 (frame, registers): no register but the destination register of R35 changes, for any command and any result
code. PMSM terms that no word decodes to are covered too; what they do is the model's choice (log entry 8). The
table of R35 is the spec's own ("[derived: from the family rules R100 to R190]"). -/
def Obligations.OnlyTheDestinationRegisterChanges : Prop :=
  ∀ (i : Instr) (s t : State), exec i s = .next t →
    (∀ q : FReg, destOf i ≠ .f q → t.getF q = s.getF q) ∧
    (∀ q : SReg, destOf i ≠ .s q → t.getS q = s.getS q) ∧
    (∀ q : PReg, destOf i ≠ .p q → t.getP q = s.getP q)

/-- R25 (frame, FLAG): only FISQRT and PEQ write FLAG, and no command that ends with a nonzero code does. PMSM
terms that no word decodes to are covered too; what they do is the model's choice (log entry 8). -/
def Obligations.OnlyFisqrtAndPeqWriteFlag : Prop :=
  ∀ (i : Instr) (s t : State), exec i s = .next t → writesFlag i = false ∨ t.err ≠ .ok → t.flag = s.flag

/-- R35, R52, R204 (frame, BUF): no byte of BUF changes but the 32 bytes of the slot that FST, SST or PENC names; with a
nonzero code none does. The model's own fields `pending` and `response` (log entries 1 and 2) are untouched. PMSM terms that
no word decodes to are covered too; what they do is the model's choice (log entry 8). The
table of R35 is the spec's own ("[derived: from the family rules R100 to R190]"). -/
def Obligations.OnlyTheNamedSlotChanges : Prop :=
  ∀ (i : Instr) (s t : State), exec i s = .next t →
    (∀ x : Nat, (∀ k : Slot, storeSlotOf i = some k → x < slotAddr k ∨ slotAddr k + 32 ≤ x) →
      memByte t.buf x = memByte s.buf x) ∧
    (storeSlotOf i = none → t.buf = s.buf) ∧ (t.err ≠ .ok → t.buf = s.buf) ∧
    t.pending = s.pending ∧ t.response = s.response

/-- R26 (STATUS): every command writes ERR, and STICKY is set exactly where it was set or ERR is nonzero; R200, R201: the
code is one the command's row of R200 allows. -/
def Obligations.StatusAfterACommand : Prop :=
  ∀ (i : Instr) (s t : State), i.wellFormed = true → exec i s = .next t →
    t.sticky = (s.sticky || decide (t.err ≠ .ok)) ∧ t.err ∈ codesOf i

/-- R204: a command with a NONE source, and no unequal counts, ends with InvalidOperand: its destination register becomes
NONE and nothing else but STATUS changes. -/
def Obligations.NoneSourceIsInvalidOperand : Prop :=
  ∀ (i : Instr) (s : State), i.wellFormed = true → countsDiffer i = false → sourcesValid i s = false →
    exec i s = .next ((s.invalidate (destOf i)).setStatus .invalidOperand)

/-- R204, R208: a command that ends with a nonzero code leaves NONE in its destination register, whatever it held. (R208 is
the spec's own inference, "[derived: from rule R204]".) -/
def Obligations.FailedCommandLeavesNone : Prop :=
  ∀ (i : Instr) (s t : State), i.wellFormed = true → exec i s = .next t → t.err ≠ .ok → DestIsNone (destOf i) t

/-- R5: what a command leaves in its destination, in ERR, and on success in FLAG and in the slot it writes, depends on its
inputs of R35 alone: two states that agree on those give the same. The
table of R35 is the spec's own ("[derived: from the family rules R100 to R190]"). -/
def Obligations.ResultDependsOnInputsOnly : Prop :=
  ∀ (i : Instr) (s s' t t' : State), SameInputs i s s' → exec i s = .next t → exec i s' = .next t' →
    i.wellFormed = true → s.buf.wf = true → s'.buf.wf = true →
    t.err = t'.err ∧ SameDest (destOf i) t t' ∧ (writesFlag i = true → t.err = .ok → t.flag = t'.flag) ∧
    (∀ k : Slot, storeSlotOf i = some k → t.err = .ok →
      ∀ j, j < 32 → memByte t.buf (slotAddr k + j) = memByte t'.buf (slotAddr k + j))

/-! ## The invariant -/

/-- R36, R22, R26: the reset state meets the invariant. Its clause about BUF, the canonical form of the list, is the model's
own and no rule of the spec (log entry 14). -/
def Obligations.ResetMeetsTheInvariant : Prop := State.reset.Inv

/-- R22 ("A P register can only ever hold a point of E") and R26: every step keeps the invariant, from every state that meets
it. Its clause about BUF, the canonical form of the list, is the model's own and no rule of the spec (log entry 14). -/
def Obligations.EveryStepKeepsTheInvariant : Prop :=
  ∀ s t : State, s.Inv → step s = .next t → t.Inv
end

