-- ==== Sys2Proof/Laws/Arith.lean ====
section
/-!
SUPPORT. The arithmetic of the model is the arithmetic of the field ZMod p: modular power, the primality of p (a Pratt
certificate), and one lemma per field operation that carries it into ZMod p, so that later proofs use the field's own laws.
-/

namespace Sys2Proof.Machine

open Sys2Proof.Config

/-! ## Modular power -/

theorem powModBits_eq (m : Nat) : ∀ (fuel b e acc : Nat), e < 2 ^ fuel →
    powModBits m fuel b e acc % m = acc * b ^ e % m := by
  intro fuel
  induction fuel with
  | zero =>
    intro b e acc h
    have he : e = 0 := by simpa using h
    subst he
    simp [powModBits]
  | succ n ih =>
    intro b e acc h
    have h2 : e / 2 < 2 ^ n := by omega
    rw [powModBits, ih _ _ _ h2]
    have key : ∀ c : Nat, c * (b * b % m) ^ (e / 2) % m = c * b ^ (2 * (e / 2)) % m := by
      intro c
      rw [Nat.mul_mod, Nat.pow_mod, Nat.mod_mod, ← Nat.pow_mod, ← Nat.mul_mod, pow_mul, pow_two]
    rw [key]
    rcases Nat.mod_two_eq_zero_or_one e with h0 | h1
    · have : 2 * (e / 2) = e := by omega
      simp [h0, this]
    · have : e = 2 * (e / 2) + 1 := by omega
      rw [if_pos h1, Nat.mul_mod, Nat.mod_mod, ← Nat.mul_mod]
      conv_rhs => rw [this, pow_succ]
      congr 1
      ring

theorem powModBits_lt (m : Nat) (hm : 0 < m) : ∀ (fuel b e acc : Nat), acc < m → powModBits m fuel b e acc < m := by
  intro fuel
  induction fuel with
  | zero => intro b e acc h; simpa [powModBits] using h
  | succ n ih =>
    intro b e acc h
    rw [powModBits]
    apply ih
    split
    · exact Nat.mod_lt _ hm
    · exact h

/-- `powMod` is the modular power of `00_scope.md` R15. -/
theorem powMod_eq (m b e : Nat) (hm : 0 < m) : powMod m b e = b ^ e % m := by
  have hlt : e < 2 ^ (e.log2 + 1) := Nat.lt_log2_self
  have h := powModBits_eq m (e.log2 + 1) (b % m) e (1 % m) hlt
  rw [Nat.mod_eq_of_lt (powModBits_lt m hm _ _ _ _ (Nat.mod_lt _ hm))] at h
  rw [powMod, h, Nat.mul_mod, Nat.mod_mod, ← Nat.pow_mod, ← Nat.mul_mod, one_mul]

theorem powMod_cast (m a k : Nat) (hm : 0 < m) : ((powMod m a k : Nat) : ZMod m) = (a : ZMod m) ^ k := by
  rw [powMod_eq m a k hm, ZMod.natCast_mod, Nat.cast_pow]

theorem natCast_eq_one_iff (m n : Nat) (hm : 1 < m) : ((n : Nat) : ZMod m) = 1 ↔ n % m = 1 := by
  have h := ZMod.natCast_eq_natCast_iff' n 1 m
  rwa [Nat.cast_one, Nat.mod_eq_of_lt hm] at h

/-! ## p is prime -/

/-- Lucas's criterion on a list of primes whose product is n − 1. -/
theorem prime_of_witness (n a : Nat) (fs : List Nat) (hn : 1 < n) (hfs : ∀ q ∈ fs, q.Prime) (hprod : fs.prod = n - 1)
    (h1 : powMod n a (n - 1) = 1) (hne : ∀ q ∈ fs, powMod n a ((n - 1) / q) ≠ 1) : n.Prime := by
  have hpos : 0 < n := by omega
  refine lucas_primality n (a : ZMod n) ?_ ?_
  · rw [← powMod_cast n a _ hpos, h1, Nat.cast_one]
  · intro q hq hdvd hone
    rw [← hprod] at hdvd
    obtain ⟨f, hf, hqf⟩ := (Prime.dvd_prod_iff hq.prime).1 hdvd
    have hqe : q = f := (Nat.prime_dvd_prime_iff_eq hq (hfs f hf)).1 hqf
    subst hqe
    apply hne q hf
    rw [← powMod_cast n a _ hpos, natCast_eq_one_iff _ _ hn] at hone
    rw [powMod_eq n a _ hpos] at hone ⊢
    rwa [Nat.mod_mod] at hone

theorem prime_2773320623 : Nat.Prime 2773320623 :=
  prime_of_witness _ 5 [2, 2437, 569003] (by norm_num) (by simp; norm_num) (by decide) (by decide +kernel) (by decide +kernel)

theorem prime_72106336199 : Nat.Prime 72106336199 :=
  prime_of_witness _ 7 [2, 13, 2773320623] (by norm_num) (by simpa [prime_2773320623] using by norm_num) (by decide)
    (by decide +kernel) (by decide +kernel)

theorem prime_1919519569386763 : Nat.Prime 1919519569386763 :=
  prime_of_witness _ 2 [2, 3, 7, 19, 47, 47, 127, 8574133] (by norm_num) (by simp; norm_num) (by decide)
    (by decide +kernel) (by decide +kernel)

theorem prime_75445702479781427272750846543864801 : Nat.Prime 75445702479781427272750846543864801 :=
  prime_of_witness _ 7 [2, 2, 2, 2, 2, 3, 3, 5, 5, 75707, 72106336199, 1919519569386763] (by norm_num)
    (by simpa [prime_72106336199, prime_1919519569386763] using by norm_num) (by decide)
    (by decide +kernel) (by decide +kernel)

theorem prime_31757755568855353 : Nat.Prime 31757755568855353 :=
  prime_of_witness _ 10 [2, 2, 2, 3, 31, 107, 223, 4153, 430751] (by norm_num) (by simp; norm_num) (by decide)
    (by decide +kernel) (by decide +kernel)

theorem prime_pMod_factor :
    Nat.Prime 74058212732561358302231226437062788676166966415465897661863160754340907 :=
  prime_of_witness _ 2 [2, 3, 353, 57467, 132049, 1923133, 31757755568855353, 75445702479781427272750846543864801]
    (by norm_num)
    (by simpa [prime_31757755568855353, prime_75445702479781427272750846543864801] using by norm_num) (by decide)
    (by decide +kernel) (by decide +kernel)

/-- p is prime (`00_scope.md` R7). -/
theorem pMod_prime : Nat.Prime pMod :=
  prime_of_witness pMod 2 [2, 2, 3, 65147, 74058212732561358302231226437062788676166966415465897661863160754340907]
    (by decide) (by simpa [prime_pMod_factor] using by norm_num) (by decide) (by decide +kernel) (by decide +kernel)

theorem pMod_fact : Fact (Nat.Prime pMod) := ⟨pMod_prime⟩

/-- p ≡ 5 (mod 8) (`00_scope.md` R7). -/
theorem pMod_mod_eight : pMod % 8 = 5 := by decide

theorem pMod_odd : pMod % 2 = 1 := by decide

/-! ## Field elements in ZMod p -/

/-- A field element as a member of the field ZMod p. -/
def fpZ (a : Fp) : ZMod pMod := (a.val : ZMod pMod)

@[simp] theorem fpZ_toFp (n : Nat) : fpZ (toFp n) = (n : ZMod pMod) := by simp [fpZ, toFp, ZMod.natCast_mod]

theorem fpZ_injective {a b : Fp} (h : fpZ a = fpZ b) : a = b := by
  unfold fpZ at h
  rw [ZMod.natCast_eq_natCast_iff', Nat.mod_eq_of_lt a.isLt, Nat.mod_eq_of_lt b.isLt] at h
  exact Fin.ext h

theorem fpZ_inj {a b : Fp} : fpZ a = fpZ b ↔ a = b := ⟨fpZ_injective, fun h => h ▸ rfl⟩

@[simp] theorem toFp_val (a : Fp) : toFp a.val = a := Fin.ext (Nat.mod_eq_of_lt a.isLt)

@[simp] theorem fpZ_zero : fpZ fpZero = 0 := by simp [fpZero]

@[simp] theorem fpZ_one : fpZ fpOne = 1 := by simp [fpOne]

@[simp] theorem fpZ_add (a b : Fp) : fpZ (fpAdd a b) = fpZ a + fpZ b := by
  rw [fpAdd, fpZ_toFp, Nat.cast_add]; rfl

@[simp] theorem fpZ_mul (a b : Fp) : fpZ (fpMul a b) = fpZ a * fpZ b := by
  rw [fpMul, fpZ_toFp, Nat.cast_mul]; rfl

@[simp] theorem fpZ_sqr (a : Fp) : fpZ (fpSqr a) = fpZ a * fpZ a := by simp [fpSqr]

@[simp] theorem fpZ_neg (a : Fp) : fpZ (fpNeg a) = -fpZ a := by
  rw [fpNeg, fpZ_toFp, Nat.cast_sub a.isLt.le, ZMod.natCast_self, zero_sub]; rfl

@[simp] theorem fpZ_sub (a b : Fp) : fpZ (fpSub a b) = fpZ a - fpZ b := by
  rw [fpSub, fpZ_toFp, Nat.cast_add, Nat.cast_sub b.isLt.le, ZMod.natCast_self, zero_sub, ← sub_eq_add_neg]; rfl

theorem fpZ_eq_zero {a : Fp} : fpZ a = 0 ↔ a = fpZero := by rw [← fpZ_zero, fpZ_inj]

/-- The exponent p − 2 inverts: `inv_p` of `00_scope.md` R15, and 0 for 0. -/
@[simp] theorem fpZ_inv (a : Fp) : fpZ (fpInv a) = (fpZ a)⁻¹ := by
  have := pMod_fact
  rw [fpInv, fpZ_toFp, powMod_cast _ _ _ pMod_pos]
  change fpZ a ^ (pMod - 2) = (fpZ a)⁻¹
  by_cases h : fpZ a = 0
  · have hne : pMod - 2 ≠ 0 := by decide
    rw [h, zero_pow hne, inv_zero]
  · have hfer : fpZ a ^ (pMod - 1) = 1 := ZMod.pow_card_sub_one_eq_one h
    have hsucc : pMod - 1 = (pMod - 2) + 1 := by decide
    rw [hsucc, pow_succ] at hfer
    exact eq_inv_of_mul_eq_one_left hfer

/-- The product of two field elements is 1 exactly where the integers' product is 1 mod p. -/
theorem mul_mod_eq_one_iff (a b : Fp) : a.val * b.val % pMod = 1 ↔ fpZ a * fpZ b = 1 := by
  rw [← natCast_eq_one_iff _ _ pMod_prime.one_lt, Nat.cast_mul]; rfl

/-- Euler's test decides squareness (`00_scope.md` R15). -/
theorem fpIsSquare_iff (a : Fp) : fpIsSquare a = true ↔ IsSquare (fpZ a) := by
  have := pMod_fact
  have hhalf : (pMod - 1) / 2 = pMod / 2 := by decide
  by_cases h : a = fpZero
  · subst h
    simp [fpIsSquare]
  · have hz : fpZ a ≠ 0 := fun h0 => h (fpZ_eq_zero.1 h0)
    have hpow : powMod pMod a.val ((pMod - 1) / 2) = 1 ↔ fpZ a ^ (pMod / 2) = 1 := by
      rw [powMod_eq _ _ _ pMod_pos, hhalf]
      have e : fpZ a ^ (pMod / 2) = ((a.val ^ (pMod / 2) : Nat) : ZMod pMod) := by
        rw [Nat.cast_pow]; rfl
      rw [e, natCast_eq_one_iff _ _ pMod_prime.one_lt]
    rw [ZMod.euler_criterion pMod hz, ← hpow]
    simp [fpIsSquare, h]

/-! ## d and √−1 -/

/-- d is not a square mod p (`00_scope.md` R9). -/
theorem dCurve_not_square : ¬ IsSquare ((dCurve : Nat) : ZMod pMod) := by
  have h := fpIsSquare_iff (toFp dCurve)
  rw [fpZ_toFp] at h
  rw [← h]
  decide +kernel

/-- SQRT_M1² = −1 mod p (`00_scope.md` R10). -/
theorem sqrtM1_sq : ((sqrtM1 : Nat) : ZMod pMod) * (sqrtM1 : Nat) = -1 := by
  have h : fpMul (toFp sqrtM1) (toFp sqrtM1) = fpNeg fpOne := by decide +kernel
  have := congrArg fpZ h
  simpa using this

end Sys2Proof.Machine
end

