-- ==== Sys2Proof/Laws/State.lean ====
section
/-!
SUPPORT. One lemma per field per update of State, and what a register reads after each register write, so that no later
proof unfolds a record update.
-/

namespace Sys2Proof.Machine

variable (s : State)

@[simp] theorem State.sReg_setF (r : FReg) (v : Option Fp) : (s.setF r v).sReg = s.sReg := rfl
@[simp] theorem State.pReg_setF (r : FReg) (v : Option Fp) : (s.setF r v).pReg = s.pReg := rfl
@[simp] theorem State.flag_setF (r : FReg) (v : Option Fp) : (s.setF r v).flag = s.flag := rfl
@[simp] theorem State.err_setF (r : FReg) (v : Option Fp) : (s.setF r v).err = s.err := rfl
@[simp] theorem State.sticky_setF (r : FReg) (v : Option Fp) : (s.setF r v).sticky = s.sticky := rfl
@[simp] theorem State.buf_setF (r : FReg) (v : Option Fp) : (s.setF r v).buf = s.buf := rfl
@[simp] theorem State.pending_setF (r : FReg) (v : Option Fp) : (s.setF r v).pending = s.pending := rfl
@[simp] theorem State.response_setF (r : FReg) (v : Option Fp) : (s.setF r v).response = s.response := rfl

@[simp] theorem State.fReg_setS (r : SReg) (v : Option Zl) : (s.setS r v).fReg = s.fReg := rfl
@[simp] theorem State.pReg_setS (r : SReg) (v : Option Zl) : (s.setS r v).pReg = s.pReg := rfl
@[simp] theorem State.flag_setS (r : SReg) (v : Option Zl) : (s.setS r v).flag = s.flag := rfl
@[simp] theorem State.err_setS (r : SReg) (v : Option Zl) : (s.setS r v).err = s.err := rfl
@[simp] theorem State.sticky_setS (r : SReg) (v : Option Zl) : (s.setS r v).sticky = s.sticky := rfl
@[simp] theorem State.buf_setS (r : SReg) (v : Option Zl) : (s.setS r v).buf = s.buf := rfl
@[simp] theorem State.pending_setS (r : SReg) (v : Option Zl) : (s.setS r v).pending = s.pending := rfl
@[simp] theorem State.response_setS (r : SReg) (v : Option Zl) : (s.setS r v).response = s.response := rfl

@[simp] theorem State.fReg_setP (r : PReg) (v : Option Point) : (s.setP r v).fReg = s.fReg := rfl
@[simp] theorem State.sReg_setP (r : PReg) (v : Option Point) : (s.setP r v).sReg = s.sReg := rfl
@[simp] theorem State.flag_setP (r : PReg) (v : Option Point) : (s.setP r v).flag = s.flag := rfl
@[simp] theorem State.err_setP (r : PReg) (v : Option Point) : (s.setP r v).err = s.err := rfl
@[simp] theorem State.sticky_setP (r : PReg) (v : Option Point) : (s.setP r v).sticky = s.sticky := rfl
@[simp] theorem State.buf_setP (r : PReg) (v : Option Point) : (s.setP r v).buf = s.buf := rfl
@[simp] theorem State.pending_setP (r : PReg) (v : Option Point) : (s.setP r v).pending = s.pending := rfl
@[simp] theorem State.response_setP (r : PReg) (v : Option Point) : (s.setP r v).response = s.response := rfl

@[simp] theorem State.fReg_setFlag (b : Bool) : (s.setFlag b).fReg = s.fReg := rfl
@[simp] theorem State.sReg_setFlag (b : Bool) : (s.setFlag b).sReg = s.sReg := rfl
@[simp] theorem State.pReg_setFlag (b : Bool) : (s.setFlag b).pReg = s.pReg := rfl
@[simp] theorem State.flag_setFlag (b : Bool) : (s.setFlag b).flag = b := rfl
@[simp] theorem State.err_setFlag (b : Bool) : (s.setFlag b).err = s.err := rfl
@[simp] theorem State.sticky_setFlag (b : Bool) : (s.setFlag b).sticky = s.sticky := rfl
@[simp] theorem State.buf_setFlag (b : Bool) : (s.setFlag b).buf = s.buf := rfl
@[simp] theorem State.pending_setFlag (b : Bool) : (s.setFlag b).pending = s.pending := rfl
@[simp] theorem State.response_setFlag (b : Bool) : (s.setFlag b).response = s.response := rfl

@[simp] theorem State.fReg_setSlot (k : Slot) (v : List Byte) : (s.setSlot k v).fReg = s.fReg := rfl
@[simp] theorem State.sReg_setSlot (k : Slot) (v : List Byte) : (s.setSlot k v).sReg = s.sReg := rfl
@[simp] theorem State.pReg_setSlot (k : Slot) (v : List Byte) : (s.setSlot k v).pReg = s.pReg := rfl
@[simp] theorem State.flag_setSlot (k : Slot) (v : List Byte) : (s.setSlot k v).flag = s.flag := rfl
@[simp] theorem State.err_setSlot (k : Slot) (v : List Byte) : (s.setSlot k v).err = s.err := rfl
@[simp] theorem State.sticky_setSlot (k : Slot) (v : List Byte) : (s.setSlot k v).sticky = s.sticky := rfl
@[simp] theorem State.buf_setSlot (k : Slot) (v : List Byte) : (s.setSlot k v).buf = bufWrite s.buf k v := rfl
@[simp] theorem State.pending_setSlot (k : Slot) (v : List Byte) : (s.setSlot k v).pending = s.pending := rfl
@[simp] theorem State.response_setSlot (k : Slot) (v : List Byte) : (s.setSlot k v).response = s.response := rfl

@[simp] theorem State.fReg_setStatus (c : ResultCode) : (s.setStatus c).fReg = s.fReg := rfl
@[simp] theorem State.sReg_setStatus (c : ResultCode) : (s.setStatus c).sReg = s.sReg := rfl
@[simp] theorem State.pReg_setStatus (c : ResultCode) : (s.setStatus c).pReg = s.pReg := rfl
@[simp] theorem State.flag_setStatus (c : ResultCode) : (s.setStatus c).flag = s.flag := rfl
@[simp] theorem State.err_setStatus (c : ResultCode) : (s.setStatus c).err = c := rfl
@[simp] theorem State.sticky_setStatus (c : ResultCode) : (s.setStatus c).sticky = (s.sticky || decide (c ≠ .ok)) := rfl
@[simp] theorem State.buf_setStatus (c : ResultCode) : (s.setStatus c).buf = s.buf := rfl
@[simp] theorem State.pending_setStatus (c : ResultCode) : (s.setStatus c).pending = s.pending := rfl
@[simp] theorem State.response_setStatus (c : ResultCode) : (s.setStatus c).response = s.response := rfl

/-! ## Reading a register after a register write -/

theorem State.getF_setF (r q : FReg) (v : Option Fp) : (s.setF r v).getF q = if r = q then v else s.getF q := by
  simp [State.getF, State.setF, Vector.getElem_set, Fin.ext_iff]

theorem State.getS_setS (r q : SReg) (v : Option Zl) : (s.setS r v).getS q = if r = q then v else s.getS q := by
  simp [State.getS, State.setS, Vector.getElem_set, Fin.ext_iff]

theorem State.getP_setP (r q : PReg) (v : Option Point) : (s.setP r v).getP q = if r = q then v else s.getP q := by
  simp [State.getP, State.setP, Vector.getElem_set, Fin.ext_iff]

@[simp] theorem State.getF_setF_same (r : FReg) (v : Option Fp) : (s.setF r v).getF r = v := by simp [State.getF_setF]

@[simp] theorem State.getS_setS_same (r : SReg) (v : Option Zl) : (s.setS r v).getS r = v := by simp [State.getS_setS]

@[simp] theorem State.getP_setP_same (r : PReg) (v : Option Point) : (s.setP r v).getP r = v := by simp [State.getP_setP]

@[simp] theorem State.getF_setS (q : FReg) (r : SReg) (v : Option Zl) : (s.setS r v).getF q = s.getF q := rfl
@[simp] theorem State.getF_setP (q : FReg) (r : PReg) (v : Option Point) : (s.setP r v).getF q = s.getF q := rfl
@[simp] theorem State.getF_setFlag (q : FReg) (b : Bool) : (s.setFlag b).getF q = s.getF q := rfl
@[simp] theorem State.getF_setSlot (q : FReg) (k : Slot) (v : List Byte) : (s.setSlot k v).getF q = s.getF q := rfl
@[simp] theorem State.getF_setStatus (q : FReg) (c : ResultCode) : (s.setStatus c).getF q = s.getF q := rfl

@[simp] theorem State.getS_setF (q : SReg) (r : FReg) (v : Option Fp) : (s.setF r v).getS q = s.getS q := rfl
@[simp] theorem State.getS_setP (q : SReg) (r : PReg) (v : Option Point) : (s.setP r v).getS q = s.getS q := rfl
@[simp] theorem State.getS_setFlag (q : SReg) (b : Bool) : (s.setFlag b).getS q = s.getS q := rfl
@[simp] theorem State.getS_setSlot (q : SReg) (k : Slot) (v : List Byte) : (s.setSlot k v).getS q = s.getS q := rfl
@[simp] theorem State.getS_setStatus (q : SReg) (c : ResultCode) : (s.setStatus c).getS q = s.getS q := rfl

@[simp] theorem State.getP_setF (q : PReg) (r : FReg) (v : Option Fp) : (s.setF r v).getP q = s.getP q := rfl
@[simp] theorem State.getP_setS (q : PReg) (r : SReg) (v : Option Zl) : (s.setS r v).getP q = s.getP q := rfl
@[simp] theorem State.getP_setFlag (q : PReg) (b : Bool) : (s.setFlag b).getP q = s.getP q := rfl
@[simp] theorem State.getP_setSlot (q : PReg) (k : Slot) (v : List Byte) : (s.setSlot k v).getP q = s.getP q := rfl
@[simp] theorem State.getP_setStatus (q : PReg) (c : ResultCode) : (s.setStatus c).getP q = s.getP q := rfl

/-! ## Invalidating a destination -/

@[simp] theorem State.invalidate_none : s.invalidate .none = s := rfl

@[simp] theorem State.invalidate_f (r : FReg) : s.invalidate (.f r) = s.setF r none := rfl

@[simp] theorem State.invalidate_s (r : SReg) : s.invalidate (.s r) = s.setS r none := rfl

@[simp] theorem State.invalidate_p (r : PReg) : s.invalidate (.p r) = s.setP r none := rfl

@[simp] theorem State.flag_invalidate (d : Dest) : (s.invalidate d).flag = s.flag := by cases d <;> rfl

@[simp] theorem State.err_invalidate (d : Dest) : (s.invalidate d).err = s.err := by cases d <;> rfl

@[simp] theorem State.sticky_invalidate (d : Dest) : (s.invalidate d).sticky = s.sticky := by cases d <;> rfl

@[simp] theorem State.buf_invalidate (d : Dest) : (s.invalidate d).buf = s.buf := by cases d <;> rfl

@[simp] theorem State.pending_invalidate (d : Dest) : (s.invalidate d).pending = s.pending := by cases d <;> rfl

@[simp] theorem State.response_invalidate (d : Dest) : (s.invalidate d).response = s.response := by cases d <;> rfl

/-! ## The reset state -/

@[simp] theorem State.getF_reset (r : FReg) : State.reset.getF r = none := by simp [State.getF, State.reset]

@[simp] theorem State.getS_reset (r : SReg) : State.reset.getS r = none := by simp [State.getS, State.reset]

@[simp] theorem State.getP_reset (r : PReg) : State.reset.getP r = none := by simp [State.getP, State.reset]

end Sys2Proof.Machine
end

