-- ==== Sys2Proof/Laws/Command.lean ====
section
/-!
SUPPORT. What each shared shape of command can do, said once: with its sources valid it completes with its writes and code
0x00, with a NONE source it ends with InvalidOperand; and what a step does with each kind of host access. Provers cite these
lemmas rather than unfold the shapes.
-/

namespace Sys2Proof.Machine

/-! ## The pieces of a rule -/

@[simp] theorem need_some {α : Type} (a : α) : need (some a) = .ok a := rfl

@[simp] theorem need_none {α : Type} : need (none : Option α) = .error .invalidOperand := rfl

@[simp] theorem rule1_some {α : Type} (a : α) (k : α → State) : rule1 (some a) k = .ok (k a) := rfl

@[simp] theorem rule1_none {α : Type} (k : α → State) : rule1 none k = .error .invalidOperand := rfl

@[simp] theorem rule2_some {α β : Type} (a : α) (b : β) (k : α → β → State) : rule2 (some a) (some b) k = .ok (k a b) := rfl

@[simp] theorem rule2_none_left {α β : Type} (b : Option β) (k : α → β → State) :
    rule2 none b k = .error .invalidOperand := rfl

@[simp] theorem rule2_none_right {α β : Type} (a : Option α) (k : α → β → State) :
    rule2 a none k = .error .invalidOperand := by cases a <;> rfl

@[simp] theorem endCommand_ok (d : Dest) (s t : State) : endCommand d s (.ok t) = .next (t.setStatus .ok) := rfl

@[simp] theorem endCommand_error (d : Dest) (s : State) (c : ResultCode) :
    endCommand d s (.error c) = .next ((s.invalidate d).setStatus c) := rfl

/-- Ending a command always gives a next state, one of two. -/
theorem endCommand_cases {d : Dest} {s u : State} {r : Except ResultCode State} (h : endCommand d s r = .next u) :
    (∃ t, r = .ok t ∧ u = t.setStatus .ok) ∨ (∃ c, r = .error c ∧ u = (s.invalidate d).setStatus c) := by
  cases r with
  | ok t => exact .inl ⟨t, rfl, (Host.Outcome.next.inj h).symm⟩
  | error c => exact .inr ⟨c, rfl, (Host.Outcome.next.inj h).symm⟩

theorem endCommand_next (d : Dest) (s : State) (r : Except ResultCode State) : ∃ u, endCommand d s r = .next u := by
  cases r with
  | ok t => exact ⟨_, rfl⟩
  | error c => exact ⟨_, rfl⟩

/-! ## The shapes -/

theorem fieldBinary_some (op : Fp → Fp → Fp) (rd ra rb : FReg) (s : State) {a b : Fp} (ha : s.getF ra = some a)
    (hb : s.getF rb = some b) : fieldBinary op rd ra rb s = .next ((s.setF rd (some (op a b))).setStatus .ok) := by
  simp [fieldBinary, ha, hb]

theorem fieldUnary_some (op : Fp → Fp) (rd ra : FReg) (s : State) {a : Fp} (ha : s.getF ra = some a) :
    fieldUnary op rd ra s = .next ((s.setF rd (some (op a))).setStatus .ok) := by
  simp [fieldUnary, ha]

theorem scalarBinary_some (op : Zl → Zl → Zl) (rd ra rb : SReg) (s : State) {a b : Zl} (ha : s.getS ra = some a)
    (hb : s.getS rb = some b) : scalarBinary op rd ra rb s = .next ((s.setS rd (some (op a b))).setStatus .ok) := by
  simp [scalarBinary, ha, hb]

theorem pointUnary_some (op : Point → Point) (rd ra : PReg) (s : State) {a : Point} (ha : s.getP ra = some a) :
    pointUnary op rd ra s = .next ((s.setP rd (some (op a))).setStatus .ok) := by
  simp [pointUnary, ha]

theorem loadSlot_ok {α : Type} (d : Dest) (dec : Nat → Except ResultCode α) (put : State → α → State) (slot : Slot)
    (s : State) {v : α} (h : dec (slotInt s slot) = .ok v) :
    loadSlot d dec put slot s = .next ((put s v).setStatus .ok) := by
  simp [loadSlot, h]

theorem loadSlot_error {α : Type} (d : Dest) (dec : Nat → Except ResultCode α) (put : State → α → State) (slot : Slot)
    (s : State) {c : ResultCode} (h : dec (slotInt s slot) = .error c) :
    loadSlot d dec put slot s = .next ((s.invalidate d).setStatus c) := by
  simp [loadSlot, h]

theorem storeSlot_some {α : Type} (code : α → Nat) (slot : Slot) (s : State) (v : α) :
    storeSlot (some v) code slot s = .next ((s.setSlot slot (le32 (code v))).setStatus .ok) := rfl

theorem storeSlot_none {α : Type} (code : α → Nat) (slot : Slot) (s : State) :
    storeSlot (none : Option α) code slot s = .next (s.setStatus .invalidOperand) := rfl

theorem loadSlot_next {α : Type} (d : Dest) (dec : Nat → Except ResultCode α) (put : State → α → State) (slot : Slot)
    (s : State) : ∃ u, loadSlot d dec put slot s = .next u := endCommand_next _ _ _

theorem storeSlot_next {α : Type} (a : Option α) (code : α → Nat) (slot : Slot) (s : State) :
    ∃ u, storeSlot a code slot s = .next u := endCommand_next _ _ _

/-! ## Register runs -/

/-- A run all of whose registers hold values reads as those values, in order. -/
theorem readRun_ok {α : Type} (file : Vector (Option α) Config.nReg) :
    ∀ (n k : Nat) (v : Nat → α), (∀ j, j < n → file[k + j]? = some (some (v j))) →
      readRun file k n = .ok ((List.range n).map v) := by
  intro n
  induction n with
  | zero => intro k v _; rfl
  | succ n ih =>
    intro k v h
    have h0 : file[k]? = some (some (v 0)) := h 0 (by omega)
    have hs := ih (k + 1) (fun j => v (j + 1)) (fun j hj => by
      rw [show k + 1 + j = k + (j + 1) by omega]
      exact h (j + 1) (by omega))
    simp [readRun, h0, hs, List.range_succ_eq_map, Function.comp_def]

/-- A run one of whose registers is NONE, or lies past the file, is InvalidOperand. -/
theorem readRun_error {α : Type} (file : Vector (Option α) Config.nReg) :
    ∀ (n k j : Nat), j < n → file[k + j]?.join = none → readRun file k n = .error .invalidOperand := by
  intro n
  induction n with
  | zero => intro k j hj _; omega
  | succ n ih =>
    intro k j hj h
    rw [readRun]
    cases hk : file[k]?.join with
    | none => rfl
    | some a =>
      cases j with
      | zero => rw [Nat.add_zero, hk] at h; cases h
      | succ j =>
        rw [show k + (j + 1) = k + 1 + j by omega] at h
        simp only [ih (k + 1) j (by omega) h]

/-- A run raises InvalidOperand and nothing else. -/
theorem readRun_code {α : Type} (file : Vector (Option α) Config.nReg) :
    ∀ (n k : Nat) (c : ResultCode), readRun file k n = .error c → c = .invalidOperand := by
  intro n
  induction n with
  | zero => intro k c h; cases h
  | succ n ih =>
    intro k c h
    rw [readRun] at h
    split at h
    · exact (Except.error.inj h).symm
    · split at h
      · rename_i hr
        exact ih _ _ (by rw [hr]; exact congrArg _ (Except.error.inj h))
      · cases h

/-! ## Host accesses and steps -/

theorem step_nil (s : State) (h : s.pending = []) : step s = .next s := by
  unfold step
  rw [h]

theorem step_cons (s : State) (e : HostEvent) (rest : List HostEvent) (h : s.pending = e :: rest) :
    step s = perform e { s with pending := rest } := by
  unfold step
  rw [h]

/-- A host write of `w` to CMD is `Execute(w)` (`10_state.md` R27). -/
theorem perform_command (w : Word) (s : State) :
    perform (.write cmdOffset 4 w) s = execute w { s with response := none } := rfl

/-- The step that serves a host write of `w` to CMD, whatever `w` decodes to (`10_state.md` R27). -/
theorem step_command (s : State) (w : Word) (rest : List HostEvent) (h : s.pending = .write cmdOffset 4 w :: rest) :
    step s = execute w { s with pending := rest, response := none } := by
  rw [step_cons s _ rest h, perform_command]

theorem execute_ok (w : Word) (i : Instr) (s : State) (h : decode w = .ok i) : execute w s = exec i s := by
  unfold execute
  rw [h]

theorem execute_error (w : Word) (e : DecodeError) (s : State) (h : decode w = .error e) :
    execute w s = .next (s.setStatus .illegalCommand) := by
  unfold execute
  rw [h]
  rfl

end Sys2Proof.Machine
end

