-- ==== Sys2Proof/Laws/Edwards.lean ====
section
/-!
SUPPORT. The curve −x² + y² = 1 + d·x²·y² and its addition law over any field in which −1 is a square and d is not
(`42_point.md` R141 to R144): the denominators never vanish, sums stay on the curve, and addition is associative. The
polynomial identities are certificates: each numerator written as a combination of the curve equations.
-/

namespace Sys2Proof.Edwards

variable {K : Type} [Field K]

/-- The curve equation (`42_point.md` R140). -/
def OnE (d x y : K) : Prop := y * y - x * x = 1 + d * (x * x * (y * y))

/-- t = d·x1·x2·y1·y2 of `42_point.md` R141. -/
def tOf (d x1 y1 x2 y2 : K) : K := d * (x1 * x2 * (y1 * y2))

/-- The first coordinate of the sum (`42_point.md` R141). -/
def addX (d x1 y1 x2 y2 : K) : K := (x1 * y2 + y1 * x2) * (1 + tOf d x1 y1 x2 y2)⁻¹

/-- The second coordinate of the sum. -/
def addY (d x1 y1 x2 y2 : K) : K := (y1 * y2 + x1 * x2) * (1 - tOf d x1 y1 x2 y2)⁻¹

/-- Completeness in one line: t² is never 1. -/
theorem tOf_sq_ne_one {d i : K} (hi : i * i = -1) (hd : ¬ IsSquare d) {x1 y1 x2 y2 : K} (h1 : OnE d x1 y1)
    (h2 : OnE d x2 y2) : tOf d x1 y1 x2 y2 * tOf d x1 y1 x2 y2 ≠ 1 := by
  unfold OnE at h1 h2
  unfold tOf
  intro ht
  generalize hε : d * (x1 * x2 * (y1 * y2)) = ε at ht
  have hne : x1 * y1 ≠ 0 := by
    rintro h0
    have : ε = 0 := by linear_combination (d * x2 * y2) * h0 - hε
    rw [this] at ht
    simp at ht
  have hxy2 : x2 * y2 ≠ 0 := by
    rintro h0
    have : ε = 0 := by linear_combination (d * x1 * y1) * h0 - hε
    rw [this] at ht
    simp at ht
  -- (i·x1 + ε·y1)² = d·(x1·y1·(i·x2 + y2))², and the same with i·x2 − y2
  have hplus : (i * x1 + ε * y1) * (i * x1 + ε * y1) = d * ((x1 * y1 * (i * x2 + y2)) * (x1 * y1 * (i * x2 + y2))) := by
    linear_combination (x1 * x1 - d * (x1 * y1) * (x1 * y1) * x2 * x2) * hi - d * (x1 * y1) * (x1 * y1) * h2 + h1
      + (y1 * y1 - 1) * ht - (d * (x1 * x2 * (y1 * y2)) + ε) * hε - 2 * i * x1 * y1 * hε
  have hminus : (i * x1 - ε * y1) * (i * x1 - ε * y1) = d * ((x1 * y1 * (i * x2 - y2)) * (x1 * y1 * (i * x2 - y2))) := by
    linear_combination (x1 * x1 - d * (x1 * y1) * (x1 * y1) * x2 * x2) * hi - d * (x1 * y1) * (x1 * y1) * h2 + h1
      + (y1 * y1 - 1) * ht - (d * (x1 * x2 * (y1 * y2)) + ε) * hε + 2 * i * x1 * y1 * hε
  have square_of : ∀ u v : K, v ≠ 0 → u * u = d * (v * v) → IsSquare d := by
    intro u v hv h
    refine ⟨u / v, ?_⟩
    field_simp
    linear_combination -h
  have hp : i * x2 + y2 = 0 := by
    by_contra h
    exact hd (square_of _ _ (mul_ne_zero hne h) hplus)
  have hm : i * x2 - y2 = 0 := by
    by_contra h
    exact hd (square_of _ _ (mul_ne_zero hne h) hminus)
  -- then y2² = i²·x2² in two ways, so 2·y2 = 0 and 2·i·x2 = 0
  have hy : 2 * y2 = 0 := by linear_combination hp - hm
  have hx : 2 * x2 = 0 := by linear_combination (-i) * hp - i * hm + 2 * x2 * hi
  by_cases two : (2 : K) = 0
  · -- in characteristic 2 every curve point has d·x²·y² = (y + x + 1)², which makes d a square
    refine hd (square_of (y2 - x2 - 1) (x2 * y2) hxy2 ?_)
    linear_combination h2 + (1 + x2 - y2 + x2 * x2 - x2 * y2) * two
  · exact hxy2 (by rw [(mul_eq_zero.1 hy).resolve_left two, mul_zero])

section Complete

variable {d i : K} (hi : i * i = -1) (hd : ¬ IsSquare d)
include hi hd

/-- `42_point.md` R143: 1 + t is nonzero. -/
theorem one_add_tOf_ne {x1 y1 x2 y2 : K} (h1 : OnE d x1 y1) (h2 : OnE d x2 y2) : 1 + tOf d x1 y1 x2 y2 ≠ 0 := by
  intro h
  exact tOf_sq_ne_one hi hd h1 h2 (by linear_combination (tOf d x1 y1 x2 y2 - 1) * h)

/-- `42_point.md` R143: 1 − t is nonzero. -/
theorem one_sub_tOf_ne {x1 y1 x2 y2 : K} (h1 : OnE d x1 y1) (h2 : OnE d x2 y2) : 1 - tOf d x1 y1 x2 y2 ≠ 0 := by
  intro h
  exact tOf_sq_ne_one hi hd h1 h2 (by linear_combination (-1 - tOf d x1 y1 x2 y2) * h)

/-- `42_point.md` R143: a sum of curve points is a curve point. -/
theorem add_onE {x1 y1 x2 y2 : K} (h1 : OnE d x1 y1) (h2 : OnE d x2 y2) :
    OnE d (addX d x1 y1 x2 y2) (addY d x1 y1 x2 y2) := by
  have hp := one_add_tOf_ne hi hd h1 h2
  have hm := one_sub_tOf_ne hi hd h1 h2
  unfold OnE at h1 h2
  unfold OnE addX addY
  generalize hA : 1 + tOf d x1 y1 x2 y2 = A at hp
  generalize hB : 1 - tOf d x1 y1 x2 y2 = B at hm
  field_simp
  rw [← hA, ← hB]
  unfold tOf
  linear_combination
    (y2^4 + (-4*x2^2*y2^2) + (-2*x2^2*y2^2*d) + 2*x2^2*y2^4 + x2^4 + (-2*x2^4*y2^2) + (-2*x2^4*y2^4*d) +
      (-1*x2^4*y2^4*d^2) + (-1*y1^2*x2^2*y2^4*d) + y1^2*x2^4*y2^2*d + y1^2*x2^4*y2^4*d^2 + x1^2*x2^2*y2^4*d +
      (-1*x1^2*x2^4*y2^2*d) + (-1*x1^2*x2^4*y2^4*d^2) + x1^2*y1^2*x2^4*y2^4*d^3) * h1 +
    (1 + y2^2 + (-1*x2^2) + 2*x2^2*y2^2 + x2^2*y2^2*d + (-1*y1^2*y2^2) + y1^2*x2^2 + (-2*y1^2*x2^2*y2^2) +
      (-2*y1^2*x2^2*y2^2*d) + y1^4*x2^2*y2^2*d + x1^2*y2^2 + (-1*x1^2*x2^2) + 2*x1^2*x2^2*y2^2 +
      2*x1^2*x2^2*y2^2*d + x1^4*x2^2*y2^2*d) * h2

omit hi hd in
/-- A sum of a sum, without inner quotients. -/
theorem addX_of_quotients {nx ny D1 D2 x3 y3 : K} (h1 : D1 ≠ 0) (h2 : D2 ≠ 0) :
    addX d (nx * D1⁻¹) (ny * D2⁻¹) x3 y3 = (nx * y3 * D2 + ny * x3 * D1) / (D1 * D2 + d * nx * ny * x3 * y3) := by
  unfold addX tOf
  rw [← div_eq_mul_inv]
  have hk : D1 * D2 ≠ 0 := mul_ne_zero h1 h2
  rw [← mul_div_mul_left _ _ hk]
  congr 1 <;> field_simp

omit hi hd in
theorem addY_of_quotients {nx ny D1 D2 x3 y3 : K} (h1 : D1 ≠ 0) (h2 : D2 ≠ 0) :
    addY d (nx * D1⁻¹) (ny * D2⁻¹) x3 y3 = (ny * y3 * D1 + nx * x3 * D2) / (D1 * D2 - d * nx * ny * x3 * y3) := by
  unfold addY tOf
  rw [← div_eq_mul_inv]
  have hk : D1 * D2 ≠ 0 := mul_ne_zero h1 h2
  rw [← mul_div_mul_left _ _ hk]
  congr 1 <;> field_simp

omit hi hd in
theorem addX_comm (x1 y1 x2 y2 : K) : addX d x1 y1 x2 y2 = addX d x2 y2 x1 y1 := by
  have ht : tOf d x1 y1 x2 y2 = tOf d x2 y2 x1 y1 := by unfold tOf; ring
  unfold addX
  rw [ht]
  ring

omit hi hd in
theorem addY_comm (x1 y1 x2 y2 : K) : addY d x1 y1 x2 y2 = addY d x2 y2 x1 y1 := by
  have ht : tOf d x1 y1 x2 y2 = tOf d x2 y2 x1 y1 := by unfold tOf; ring
  unfold addY
  rw [ht]
  ring

/-- The denominators of a sum of a sum, without inner quotients, are nonzero. -/
theorem outer_ne {x1 y1 x2 y2 x3 y3 : K} (h1 : OnE d x1 y1) (h2 : OnE d x2 y2) (h3 : OnE d x3 y3) :
    (1 + tOf d x1 y1 x2 y2) * (1 - tOf d x1 y1 x2 y2) + d * (x1 * y2 + y1 * x2) * (y1 * y2 + x1 * x2) * x3 * y3 ≠ 0 ∧
    (1 + tOf d x1 y1 x2 y2) * (1 - tOf d x1 y1 x2 y2) - d * (x1 * y2 + y1 * x2) * (y1 * y2 + x1 * x2) * x3 * y3 ≠ 0 := by
  have hp := one_add_tOf_ne hi hd h1 h2
  have hm := one_sub_tOf_ne hi hd h1 h2
  have hs := add_onE hi hd h1 h2
  have op := mul_ne_zero (mul_ne_zero hp hm) (one_add_tOf_ne hi hd hs h3)
  have om := mul_ne_zero (mul_ne_zero hp hm) (one_sub_tOf_ne hi hd hs h3)
  have e : (1 + tOf d x1 y1 x2 y2) * (1 - tOf d x1 y1 x2 y2) *
      tOf d (addX d x1 y1 x2 y2) (addY d x1 y1 x2 y2) x3 y3 =
      d * (x1 * y2 + y1 * x2) * (y1 * y2 + x1 * x2) * x3 * y3 := by
    generalize hT : tOf d x1 y1 x2 y2 = T at hp hm ⊢
    unfold addX addY
    rw [hT]
    unfold tOf
    field_simp
  constructor
  · intro h
    exact op (by linear_combination h + e)
  · intro h
    exact om (by linear_combination h - e)

/-- `42_point.md` R144: ⊕ is associative, first coordinate. -/
theorem addX_assoc {x1 y1 x2 y2 x3 y3 : K} (h1 : OnE d x1 y1) (h2 : OnE d x2 y2) (h3 : OnE d x3 y3) :
    addX d (addX d x1 y1 x2 y2) (addY d x1 y1 x2 y2) x3 y3 =
      addX d x1 y1 (addX d x2 y2 x3 y3) (addY d x2 y2 x3 y3) := by
  have l := (outer_ne hi hd h1 h2 h3).1
  have r := (outer_ne hi hd h2 h3 h1).1
  have eL : addX d (addX d x1 y1 x2 y2) (addY d x1 y1 x2 y2) x3 y3 = _ :=
    addX_of_quotients (one_add_tOf_ne hi hd h1 h2) (one_sub_tOf_ne hi hd h1 h2)
  have eR : addX d (addX d x2 y2 x3 y3) (addY d x2 y2 x3 y3) x1 y1 = _ :=
    addX_of_quotients (one_add_tOf_ne hi hd h2 h3) (one_sub_tOf_ne hi hd h2 h3)
  rw [eL, addX_comm x1 y1, eR, div_eq_div_iff l r]
  unfold OnE at h1 h2 h3
  unfold tOf
  linear_combination
    ((-1*y1*x2*y2^4*x3^2*y3*d) + (-1*y1*x2^2*y2^3*x3*d) + (-1*y1*x2^2*y2^3*x3^3*d) + (-1*y1*x2^3*y2^2*y3*d) +
      y1*x2^3*y2^2*y3^3*d + y1*x2^3*y2^4*x3^2*y3*d^2 + y1*x2^4*y2*x3*y3^2*d + y1*x2^4*y2^3*x3*y3^2*d^2 +
      x1*x2*y2^4*x3*y3^2*d + (-1*x1*x2^2*y2^3*y3*d) + x1*x2^2*y2^3*y3^3*d + (-1*x1*x2^3*y2^2*x3*d) +
      (-1*x1*x2^3*y2^2*x3^3*d) + (-1*x1*x2^3*y2^4*x3*y3^2*d^2) + (-1*x1*x2^4*y2*x3^2*y3*d) +
      (-1*x1*x2^4*y2^3*x3^2*y3*d^2)) * h1 +
    (y1*y2*x3 + (-1*y1*y2*x3*y3^2) + y1*y2*x3^3 + y1*y2*x3^3*y3^2*d + y1*x2*y3 + (-1*y1*x2*y3^3) +
      y1*x2*x3^2*y3 + y1*x2*x3^2*y3^3*d + (-1*y1*x2*y2^2*x3^2*y3*d) + (-1*y1*x2^2*y2*x3*y3^2*d) +
      (-1*y1^3*y2*x3) + y1^3*y2*x3*y3^2 + (-1*y1^3*y2*x3^3) + (-1*y1^3*y2*x3^3*y3^2*d) + (-1*y1^3*x2*y3) +
      y1^3*x2*y3^3 + (-1*y1^3*x2*x3^2*y3) + (-1*y1^3*x2*x3^2*y3^3*d) + y1^3*x2*y2^2*x3^2*y3*d +
      y1^3*x2^2*y2*x3*y3^2*d + x1*y2*y3 + (-1*x1*y2*y3^3) + x1*y2*x3^2*y3 + x1*y2*x3^2*y3^3*d + x1*x2*x3 +
      (-1*x1*x2*x3*y3^2) + x1*x2*x3^3 + x1*x2*x3^3*y3^2*d + x1*x2*y2^2*x3*y3^2*d + x1*x2^2*y2*x3^2*y3*d +
      (-1*x1*y1^2*y2*y3) + x1*y1^2*y2*y3^3 + (-1*x1*y1^2*y2*x3^2*y3) + (-1*x1*y1^2*y2*x3^2*y3^3*d) +
      (-1*x1*y1^2*x2*x3) + x1*y1^2*x2*x3*y3^2 + (-1*x1*y1^2*x2*x3^3) + (-1*x1*y1^2*x2*x3^3*y3^2*d) +
      (-1*x1*y1^2*x2*y2^2*x3*y3^2*d) + x1*y1^2*x2*y2^2*x3^3*y3^2*d^2 + (-1*x1*y1^2*x2^2*y2*x3^2*y3*d) +
      (-1*x1*y1^2*x2^2*y2*x3^2*y3^3*d^2) + x1^2*y1*y2*x3 + (-1*x1^2*y1*y2*x3*y3^2) + x1^2*y1*y2*x3^3 +
      x1^2*y1*y2*x3^3*y3^2*d + x1^2*y1*x2*y3 + (-1*x1^2*y1*x2*y3^3) + x1^2*y1*x2*x3^2*y3 +
      x1^2*y1*x2*x3^2*y3^3*d + (-1*x1^2*y1*x2*y2^2*x3^2*y3*d) + (-1*x1^2*y1*x2*y2^2*x3^2*y3^3*d^2) +
      (-1*x1^2*y1*x2^2*y2*x3*y3^2*d) + x1^2*y1*x2^2*y2*x3^3*y3^2*d^2 + x1^3*y2*y3 + (-1*x1^3*y2*y3^3) +
      x1^3*y2*x3^2*y3 + x1^3*y2*x3^2*y3^3*d + x1^3*x2*x3 + (-1*x1^3*x2*x3*y3^2) + x1^3*x2*x3^3 +
      x1^3*x2*x3^3*y3^2*d + x1^3*x2*y2^2*x3*y3^2*d + x1^3*x2^2*y2*x3^2*y3*d) * h2 +
    ((-1*y1*y2*x3) + y1*y2^3*x3 + (-1*y1*x2*y3) + y1*x2*y2^2*y3 + (-1*y1*x2^2*y2*x3) + (-1*y1*x2^3*y3) +
      y1^3*y2*x3 + (-1*y1^3*y2^3*x3) + y1^3*x2*y3 + (-1*y1^3*x2*y2^2*y3) + y1^3*x2^2*y2*x3 + y1^3*x2^3*y3 +
      (-1*x1*y2*y3) + x1*y2^3*y3 + (-1*x1*x2*x3) + x1*x2*y2^2*x3 + (-1*x1*x2^2*y2*y3) + (-1*x1*x2^3*x3) +
      x1*y1^2*y2*y3 + (-1*x1*y1^2*y2^3*y3) + x1*y1^2*x2*x3 + (-1*x1*y1^2*x2*y2^2*x3) +
      (-1*x1*y1^2*x2*y2^2*x3*d) + x1*y1^2*x2^2*y2*y3 + x1*y1^2*x2^2*y2*y3*d + x1*y1^2*x2^3*x3 +
      (-1*x1^2*y1*y2*x3) + x1^2*y1*y2^3*x3 + (-1*x1^2*y1*x2*y3) + x1^2*y1*x2*y2^2*y3 + x1^2*y1*x2*y2^2*y3*d +
      (-1*x1^2*y1*x2^2*y2*x3) + (-1*x1^2*y1*x2^2*y2*x3*d) + (-1*x1^2*y1*x2^3*y3) + (-1*x1^3*y2*y3) +
      x1^3*y2^3*y3 + (-1*x1^3*x2*x3) + x1^3*x2*y2^2*x3 + (-1*x1^3*x2^2*y2*y3) + (-1*x1^3*x2^3*x3)) * h3

/-- `42_point.md` R144: ⊕ is associative, second coordinate. -/
theorem addY_assoc {x1 y1 x2 y2 x3 y3 : K} (h1 : OnE d x1 y1) (h2 : OnE d x2 y2) (h3 : OnE d x3 y3) :
    addY d (addX d x1 y1 x2 y2) (addY d x1 y1 x2 y2) x3 y3 =
      addY d x1 y1 (addX d x2 y2 x3 y3) (addY d x2 y2 x3 y3) := by
  have l := (outer_ne hi hd h1 h2 h3).2
  have r := (outer_ne hi hd h2 h3 h1).2
  have eL : addY d (addX d x1 y1 x2 y2) (addY d x1 y1 x2 y2) x3 y3 = _ :=
    addY_of_quotients (one_add_tOf_ne hi hd h1 h2) (one_sub_tOf_ne hi hd h1 h2)
  have eR : addY d (addX d x2 y2 x3 y3) (addY d x2 y2 x3 y3) x1 y1 = _ :=
    addY_of_quotients (one_add_tOf_ne hi hd h2 h3) (one_sub_tOf_ne hi hd h2 h3)
  rw [eL, addY_comm x1 y1, eR, div_eq_div_iff l r]
  unfold OnE at h1 h2 h3
  unfold tOf
  linear_combination
    (y1*x2*y2^4*x3*y3^2*d + (-1*y1*x2^2*y2^3*y3*d) + y1*x2^2*y2^3*y3^3*d + (-1*y1*x2^3*y2^2*x3*d) +
      (-1*y1*x2^3*y2^2*x3^3*d) + (-1*y1*x2^3*y2^4*x3*y3^2*d^2) + (-1*y1*x2^4*y2*x3^2*y3*d) +
      (-1*y1*x2^4*y2^3*x3^2*y3*d^2) + (-1*x1*x2*y2^4*x3^2*y3*d) + (-1*x1*x2^2*y2^3*x3*d) +
      (-1*x1*x2^2*y2^3*x3^3*d) + (-1*x1*x2^3*y2^2*y3*d) + x1*x2^3*y2^2*y3^3*d + x1*x2^3*y2^4*x3^2*y3*d^2 +
      x1*x2^4*y2*x3*y3^2*d + x1*x2^4*y2^3*x3*y3^2*d^2) * h1 +
    (y1*y2*y3 + (-1*y1*y2*y3^3) + y1*y2*x3^2*y3 + y1*y2*x3^2*y3^3*d + y1*x2*x3 + (-1*y1*x2*x3*y3^2) +
      y1*x2*x3^3 + y1*x2*x3^3*y3^2*d + y1*x2*y2^2*x3*y3^2*d + y1*x2^2*y2*x3^2*y3*d + (-1*y1^3*y2*y3) +
      y1^3*y2*y3^3 + (-1*y1^3*y2*x3^2*y3) + (-1*y1^3*y2*x3^2*y3^3*d) + (-1*y1^3*x2*x3) + y1^3*x2*x3*y3^2 +
      (-1*y1^3*x2*x3^3) + (-1*y1^3*x2*x3^3*y3^2*d) + (-1*y1^3*x2*y2^2*x3*y3^2*d) + (-1*y1^3*x2^2*y2*x3^2*y3*d)
      + x1*y2*x3 + (-1*x1*y2*x3*y3^2) + x1*y2*x3^3 + x1*y2*x3^3*y3^2*d + x1*x2*y3 + (-1*x1*x2*y3^3) +
      x1*x2*x3^2*y3 + x1*x2*x3^2*y3^3*d + (-1*x1*x2*y2^2*x3^2*y3*d) + (-1*x1*x2^2*y2*x3*y3^2*d) +
      (-1*x1*y1^2*y2*x3) + x1*y1^2*y2*x3*y3^2 + (-1*x1*y1^2*y2*x3^3) + (-1*x1*y1^2*y2*x3^3*y3^2*d) +
      (-1*x1*y1^2*x2*y3) + x1*y1^2*x2*y3^3 + (-1*x1*y1^2*x2*x3^2*y3) + (-1*x1*y1^2*x2*x3^2*y3^3*d) +
      x1*y1^2*x2*y2^2*x3^2*y3*d + x1*y1^2*x2*y2^2*x3^2*y3^3*d^2 + x1*y1^2*x2^2*y2*x3*y3^2*d +
      (-1*x1*y1^2*x2^2*y2*x3^3*y3^2*d^2) + x1^2*y1*y2*y3 + (-1*x1^2*y1*y2*y3^3) + x1^2*y1*y2*x3^2*y3 +
      x1^2*y1*y2*x3^2*y3^3*d + x1^2*y1*x2*x3 + (-1*x1^2*y1*x2*x3*y3^2) + x1^2*y1*x2*x3^3 +
      x1^2*y1*x2*x3^3*y3^2*d + x1^2*y1*x2*y2^2*x3*y3^2*d + (-1*x1^2*y1*x2*y2^2*x3^3*y3^2*d^2) +
      x1^2*y1*x2^2*y2*x3^2*y3*d + x1^2*y1*x2^2*y2*x3^2*y3^3*d^2 + x1^3*y2*x3 + (-1*x1^3*y2*x3*y3^2) +
      x1^3*y2*x3^3 + x1^3*y2*x3^3*y3^2*d + x1^3*x2*y3 + (-1*x1^3*x2*y3^3) + x1^3*x2*x3^2*y3 +
      x1^3*x2*x3^2*y3^3*d + (-1*x1^3*x2*y2^2*x3^2*y3*d) + (-1*x1^3*x2^2*y2*x3*y3^2*d)) * h2 +
    ((-1*y1*y2*y3) + y1*y2^3*y3 + (-1*y1*x2*x3) + y1*x2*y2^2*x3 + (-1*y1*x2^2*y2*y3) + (-1*y1*x2^3*x3) +
      y1^3*y2*y3 + (-1*y1^3*y2^3*y3) + y1^3*x2*x3 + (-1*y1^3*x2*y2^2*x3) + y1^3*x2^2*y2*y3 + y1^3*x2^3*x3 +
      (-1*x1*y2*x3) + x1*y2^3*x3 + (-1*x1*x2*y3) + x1*x2*y2^2*y3 + (-1*x1*x2^2*y2*x3) + (-1*x1*x2^3*y3) +
      x1*y1^2*y2*x3 + (-1*x1*y1^2*y2^3*x3) + x1*y1^2*x2*y3 + (-1*x1*y1^2*x2*y2^2*y3) +
      (-1*x1*y1^2*x2*y2^2*y3*d) + x1*y1^2*x2^2*y2*x3 + x1*y1^2*x2^2*y2*x3*d + x1*y1^2*x2^3*y3 +
      (-1*x1^2*y1*y2*y3) + x1^2*y1*y2^3*y3 + (-1*x1^2*y1*x2*x3) + x1^2*y1*x2*y2^2*x3 + x1^2*y1*x2*y2^2*x3*d +
      (-1*x1^2*y1*x2^2*y2*y3) + (-1*x1^2*y1*x2^2*y2*y3*d) + (-1*x1^2*y1*x2^3*x3) + (-1*x1^3*y2*x3) +
      x1^3*y2^3*x3 + (-1*x1^3*x2*y3) + x1^3*x2*y2^2*y3 + (-1*x1^3*x2^2*y2*x3) + (-1*x1^3*x2^3*y3)) * h3

end Complete

end Sys2Proof.Edwards
end

