-- ==== Sys2Proof/Laws/Curve.lean ====
section
/-!
SUPPORT. The model's points in the field ZMod p: one lemma per definition of Machine/Curve.lean that carries it to
Laws/Edwards.lean, and the two facts about the constants that the completeness of ⊕ rests on.
-/

namespace Sys2Proof.Machine

open Sys2Proof.Config

/-- d in ZMod p. -/
def dZ : ZMod pMod := ((dCurve : Nat) : ZMod pMod)

@[simp] theorem fpZ_fpD : fpZ fpD = dZ := by simp [fpD, dZ]

theorem dZ_not_square : ¬ IsSquare dZ := dCurve_not_square

theorem sqrtM1Z_sq : (((sqrtM1 : Nat) : ZMod pMod)) * ((sqrtM1 : Nat) : ZMod pMod) = -1 := sqrtM1_sq

/-- Two points are equal where their coordinates are equal in ZMod p. -/
theorem point_ext {P Q : Point} (hx : fpZ P.x = fpZ Q.x) (hy : fpZ P.y = fpZ Q.y) : P = Q := by
  cases P
  cases Q
  exact congr (congrArg Point.mk (fpZ_injective hx)) (fpZ_injective hy)

/-- Membership in E is the curve equation in ZMod p. -/
theorem onCurve_iff (P : Point) : onCurve P = true ↔
    letI : Field (ZMod pMod) := @ZMod.instField pMod pMod_fact
    Edwards.OnE dZ (fpZ P.x) (fpZ P.y) := by
  unfold onCurve Edwards.OnE
  rw [decide_eq_true_eq, ← fpZ_inj]
  simp

theorem fpZ_pointAdd_x (P Q : Point) : fpZ (pointAdd P Q).x =
    letI : Field (ZMod pMod) := @ZMod.instField pMod pMod_fact
    Edwards.addX dZ (fpZ P.x) (fpZ P.y) (fpZ Q.x) (fpZ Q.y) := by
  unfold pointAdd Edwards.addX Edwards.tOf
  simp

theorem fpZ_pointAdd_y (P Q : Point) : fpZ (pointAdd P Q).y =
    letI : Field (ZMod pMod) := @ZMod.instField pMod pMod_fact
    Edwards.addY dZ (fpZ P.x) (fpZ P.y) (fpZ Q.x) (fpZ Q.y) := by
  unfold pointAdd Edwards.addY Edwards.tOf
  simp

/-! The equations of the two recursions, so that no proof lets Lean unfold them into coordinates. -/

@[simp] theorem pointMultiple_zero (A : Point) : pointMultiple 0 A = pointIdentity := by rw [pointMultiple]

theorem pointMultiple_succ (k : Nat) (A : Point) : pointMultiple (k + 1) A = pointAdd (pointMultiple k A) A := by
  rw [pointMultiple]

@[simp] theorem pointMulBits_zero (k : Nat) (A : Point) : pointMulBits 0 k A = pointIdentity := by rw [pointMulBits]

theorem pointMulBits_succ (fuel k : Nat) (A : Point) : pointMulBits (fuel + 1) k A =
    if k % 2 = 1 then pointAdd A (pointMulBits fuel (k / 2) (pointDouble A))
    else pointMulBits fuel (k / 2) (pointDouble A) := by rw [pointMulBits]

@[simp] theorem pointSum_nil : pointSum [] = pointIdentity := by rw [pointSum]

theorem pointSum_cons (P : Point) (Ps : List Point) : pointSum (P :: Ps) = Ps.foldl pointAdd P := by rw [pointSum]

end Sys2Proof.Machine
end

