-- ==== Sys2Proof/Laws/Exec.lean ====
section
/-!
SUPPORT. The meaning of each command written as the end of its rule: one equation per constructor, so that later proofs about
`exec` rewrite with it and then use the lemmas of Laws/Command.lean.
-/

namespace Sys2Proof.Machine

variable (s : State)

theorem exec_fadd (rd ra rb : FReg) : exec (.fadd rd ra rb) s =
    endCommand (.f rd) s (rule2 (s.getF ra) (s.getF rb) fun a b => s.setF rd (some (fpAdd a b))) := rfl

theorem exec_fsub (rd ra rb : FReg) : exec (.fsub rd ra rb) s =
    endCommand (.f rd) s (rule2 (s.getF ra) (s.getF rb) fun a b => s.setF rd (some (fpSub a b))) := rfl

theorem exec_fneg (rd ra : FReg) : exec (.fneg rd ra) s =
    endCommand (.f rd) s (rule1 (s.getF ra) fun a => s.setF rd (some (fpNeg a))) := rfl

theorem exec_fmul (rd ra rb : FReg) : exec (.fmul rd ra rb) s =
    endCommand (.f rd) s (rule2 (s.getF ra) (s.getF rb) fun a b => s.setF rd (some (fpMul a b))) := rfl

theorem exec_fsqr (rd ra : FReg) : exec (.fsqr rd ra) s =
    endCommand (.f rd) s (rule1 (s.getF ra) fun a => s.setF rd (some (fpSqr a))) := rfl

theorem exec_finv (rd ra : FReg) : exec (.finv rd ra) s =
    endCommand (.f rd) s
      (match need (s.getF ra) with
       | .error code => .error code
       | .ok a => if a = fpZero then .error .undefinedInverse else .ok (s.setF rd (some (fpInv a)))) := rfl

theorem exec_fisqrt (rd ra : FReg) : exec (.fisqrt rd ra) s =
    endCommand (.f rd) s (rule1 (s.getF ra) fun a =>
      (s.setF rd (some ((fpInvSqrt a).getD fpZero))).setFlag (flagOfRoot (fpInvSqrt a))) := rfl

theorem exec_fsel (rd ra rb : FReg) : exec (.fsel rd ra rb) s =
    endCommand (.f rd) s (rule2 (s.getF ra) (s.getF rb) fun a b => s.setF rd (some (fpSelect s.flag a b))) := rfl

theorem exec_fld (rd : FReg) (slot : Slot) : exec (.fld rd slot) s =
    loadSlot (.f rd) fpDecode (fun s v => s.setF rd (some v)) slot s := rfl

theorem exec_fst (slot : Slot) (ra : FReg) : exec (.fst slot ra) s = storeSlot (s.getF ra) Fin.val slot s := rfl

theorem exec_sadd (rd ra rb : SReg) : exec (.sadd rd ra rb) s =
    endCommand (.s rd) s (rule2 (s.getS ra) (s.getS rb) fun a b => s.setS rd (some (zlAdd a b))) := rfl

theorem exec_smul (rd ra rb : SReg) : exec (.smul rd ra rb) s =
    endCommand (.s rd) s (rule2 (s.getS ra) (s.getS rb) fun a b => s.setS rd (some (zlMul a b))) := rfl

theorem exec_szero (rd : SReg) : exec (.szero rd) s = endCommand (.s rd) s (.ok (s.setS rd (some (toZl 0)))) := rfl

theorem exec_sone (rd : SReg) : exec (.sone rd) s = endCommand (.s rd) s (.ok (s.setS rd (some (toZl 1)))) := rfl

theorem exec_sld (rd : SReg) (slot : Slot) : exec (.sld rd slot) s =
    loadSlot (.s rd) zlDecode (fun s v => s.setS rd (some v)) slot s := rfl

theorem exec_sst (slot : Slot) (ra : SReg) : exec (.sst slot ra) s = storeSlot (s.getS ra) Fin.val slot s := rfl

theorem exec_pident (rd : PReg) : exec (.pident rd) s =
    endCommand (.p rd) s (.ok (s.setP rd (some pointIdentity))) := rfl

theorem exec_padd (rd ra rb : PReg) : exec (.padd rd ra rb) s =
    endCommand (.p rd) s (rule2 (s.getP ra) (s.getP rb) fun a b => s.setP rd (some (pointAdd a b))) := rfl

theorem exec_pdbl (rd ra : PReg) : exec (.pdbl rd ra) s =
    endCommand (.p rd) s (rule1 (s.getP ra) fun a => s.setP rd (some (pointDouble a))) := rfl

theorem exec_pneg (rd ra : PReg) : exec (.pneg rd ra) s =
    endCommand (.p rd) s (rule1 (s.getP ra) fun a => s.setP rd (some (pointNeg a))) := rfl

theorem exec_psmul (rd : PReg) (ra : SReg) (rb : PReg) (vt : Bool) : exec (.psmul rd ra rb vt) s =
    endCommand (.p rd) s (rule2 (s.getS ra) (s.getP rb) fun k a => s.setP rd (some (pointMul k.val a))) := rfl

theorem exec_peq (ra rb : PReg) : exec (.peq ra rb) s =
    endCommand .none s (rule2 (s.getP ra) (s.getP rb) fun a b => s.setFlag (flagOfEqual a b)) := rfl

theorem exec_pdec (rd : PReg) (slot : Slot) : exec (.pdec rd slot) s =
    loadSlot (.p rd) pointDecode (fun s v => s.setP rd (some v)) slot s := rfl

theorem exec_penc (slot : Slot) (ra : PReg) : exec (.penc slot ra) s = storeSlot (s.getP ra) pointCode slot s := rfl

theorem exec_pmsm (rd : PReg) (ra : SReg) (rb : PReg) (nsm1 npm1 : CountField) (vt : Bool) :
    exec (.pmsm rd ra rb nsm1 npm1 vt) s =
      if runFits ra nsm1 && runFits rb npm1 then endCommand (.p rd) s (pmsmRule rd ra rb nsm1 npm1 s)
      else illegalCommand s := rfl

/-- A run that stays inside the file is a well-formed PMSM, and its command ends its rule. -/
theorem exec_pmsm_of_wellFormed (rd : PReg) (ra : SReg) (rb : PReg) (nsm1 npm1 : CountField) (vt : Bool)
    (h : (Instr.pmsm rd ra rb nsm1 npm1 vt).wellFormed = true) :
    exec (.pmsm rd ra rb nsm1 npm1 vt) s = endCommand (.p rd) s (pmsmRule rd ra rb nsm1 npm1 s) := by
  rw [exec_pmsm]
  exact if_pos h

end Sys2Proof.Machine
end

