-- ==== Sys2Proof/Laws/Memory.lean ====
section
/-!
SUPPORT. BUF: a byte reads what was last written to it and no write touches another byte; every memory operation keeps the
canonical form; byte strings and integers correspond (`00_scope.md` R14, `20_memory.md` R50 to R53).
-/

namespace Sys2Proof.Machine

/-! ## One byte -/

theorem memByte_consCell (a : Nat) (b : Byte) (rest : Memory) (x : Nat) (h : memByte rest a = unlistedByte) :
    memByte (consCell a b rest) x = if a = x then b else memByte rest x := by
  unfold consCell
  by_cases hb : b = unlistedByte
  · rw [if_pos hb]
    by_cases hx : a = x
    · subst hx
      rw [if_pos rfl, h, hb]
    · rw [if_neg hx]
  · rw [if_neg hb, memByte]

/-- Above the last address of a rising list every byte is unlisted. -/
theorem memByte_of_wfFrom : ∀ (m : Memory) (lo x : Nat), wfFrom lo m = true → x < lo → memByte m x = unlistedByte := by
  intro m
  induction m with
  | nil => intro lo x _ _; rfl
  | cons c rest ih =>
    intro lo x h hx
    obtain ⟨k, v⟩ := c
    simp only [wfFrom, Bool.and_eq_true, decide_eq_true_eq] at h
    rw [memByte, if_neg (by omega), ih (k + 1) x h.2 (by omega)]

/-- Read after write, on memory in canonical form. -/
theorem memByte_memStore : ∀ (m : Memory) (lo a : Nat) (b : Byte) (x : Nat), wfFrom lo m = true →
    memByte (memStore m a b) x = if a = x then b else memByte m x := by
  intro m
  induction m with
  | nil =>
    intro lo a b x _
    rw [memStore, memByte_consCell _ _ _ _ rfl]
  | cons c rest ih =>
    intro lo a b x h
    obtain ⟨k, v⟩ := c
    have h' := h
    simp only [wfFrom, Bool.and_eq_true, decide_eq_true_eq] at h
    rw [memStore]
    by_cases hlt : k < a
    · rw [if_pos hlt, memByte, ih (k + 1) a b x h.2, memByte]
      by_cases hk : k = x
      · rw [if_pos hk, if_neg (by omega), if_pos hk]
      · rw [if_neg hk, if_neg hk]
    · rw [if_neg hlt]
      by_cases hk : k = a
      · subst hk
        rw [if_pos rfl, memByte_consCell _ _ _ _ (memByte_of_wfFrom rest (k + 1) k h.2 (by omega)), memByte]
        by_cases hx : k = x
        · rw [if_pos hx, if_pos hx]
        · rw [if_neg hx, if_neg hx, if_neg hx]
      · rw [if_neg hk, memByte_consCell]
        rw [memByte, if_neg hk]
        exact memByte_of_wfFrom rest (k + 1) a h.2 (by omega)

theorem memByte_consCell_ne {a x : Nat} (b : Byte) (rest : Memory) (h : a ≠ x) :
    memByte (consCell a b rest) x = memByte rest x := by
  unfold consCell
  split
  · rfl
  · rw [memByte, if_neg h]

/-- A byte write leaves every other byte alone, on any memory. -/
theorem memByte_memStore_ne : ∀ (m : Memory) (a : Nat) (b : Byte) (x : Nat), a ≠ x →
    memByte (memStore m a b) x = memByte m x := by
  intro m
  induction m with
  | nil => intro a b x h; exact memByte_consCell_ne b [] h
  | cons c rest ih =>
    intro a b x h
    obtain ⟨k, v⟩ := c
    rw [memStore]
    split
    · rw [memByte, ih a b x h, memByte]
    · split
      · rename_i hk
        rw [memByte_consCell_ne b rest h, memByte, if_neg (hk ▸ h)]
      · exact memByte_consCell_ne b _ h

/-- A byte-string write leaves every byte outside it alone, on any memory. -/
theorem memByte_memWrite_ne : ∀ (bs : List Byte) (m : Memory) (a x : Nat), x < a ∨ a + bs.length ≤ x →
    memByte (memWrite m a bs) x = memByte m x := by
  intro bs
  induction bs with
  | nil => intro m a x _; rfl
  | cons b bs ih =>
    intro m a x h
    rw [List.length_cons] at h
    rw [memWrite, ih _ _ _ (by omega), memByte_memStore_ne m a b x (by omega)]

/-! ## The canonical form is kept -/

theorem wfFrom_mono : ∀ (m : Memory) (lo lo' : Nat), lo' ≤ lo → wfFrom lo m = true → wfFrom lo' m = true := by
  intro m lo lo' hl h
  cases m with
  | nil => rfl
  | cons c rest =>
    obtain ⟨k, v⟩ := c
    simp only [wfFrom, Bool.and_eq_true, decide_eq_true_eq] at h ⊢
    exact ⟨⟨⟨by omega, h.1.1.2⟩, h.1.2⟩, h.2⟩

theorem wfFrom_consCell (a : Nat) (b : Byte) (rest : Memory) (lo : Nat) (hlo : lo ≤ a) (ha : a < Config.bufSize)
    (h : wfFrom (a + 1) rest = true) : wfFrom lo (consCell a b rest) = true := by
  unfold consCell
  by_cases hb : b = unlistedByte
  · rw [if_pos hb]
    exact wfFrom_mono rest (a + 1) lo (by omega) h
  · rw [if_neg hb]
    simp [wfFrom, hlo, ha, hb, h]

theorem wfFrom_memStore : ∀ (m : Memory) (lo a : Nat) (b : Byte), wfFrom lo m = true → lo ≤ a → a < Config.bufSize →
    wfFrom lo (memStore m a b) = true := by
  intro m
  induction m with
  | nil =>
    intro lo a b _ hlo ha
    exact wfFrom_consCell a b [] lo hlo ha rfl
  | cons c rest ih =>
    intro lo a b h hlo ha
    obtain ⟨k, v⟩ := c
    have h' := h
    simp only [wfFrom, Bool.and_eq_true, decide_eq_true_eq] at h
    rw [memStore]
    by_cases hlt : k < a
    · rw [if_pos hlt]
      simp only [wfFrom, Bool.and_eq_true, decide_eq_true_eq]
      exact ⟨h.1, ih (k + 1) a b h.2 (by omega) ha⟩
    · rw [if_neg hlt]
      by_cases hk : k = a
      · subst hk
        rw [if_pos rfl]
        exact wfFrom_consCell k b rest lo hlo ha h.2
      · rw [if_neg hk]
        refine wfFrom_consCell a b _ lo hlo ha ?_
        simp only [wfFrom, Bool.and_eq_true, decide_eq_true_eq]
        exact ⟨⟨⟨by omega, h.1.1.2⟩, h.1.2⟩, h.2⟩

/-- A byte write inside BUF keeps the canonical form. -/
theorem memStore_wf (m : Memory) (a : Nat) (b : Byte) (h : m.wf = true) (ha : a < Config.bufSize) :
    (memStore m a b).wf = true := wfFrom_memStore m 0 a b h (Nat.zero_le a) ha

/-- A byte-string write inside BUF keeps the canonical form. -/
theorem memWrite_wf : ∀ (bs : List Byte) (m : Memory) (a : Nat), m.wf = true → a + bs.length ≤ Config.bufSize →
    (memWrite m a bs).wf = true := by
  intro bs
  induction bs with
  | nil => intro m a h _; exact h
  | cons b bs ih =>
    intro m a h ha
    rw [List.length_cons] at ha
    exact ih _ _ (memStore_wf m a b h (by omega)) (by omega)

/-- A slot write keeps the canonical form. -/
theorem bufWrite_wf (m : Memory) (k : Slot) (v : List Byte) (hv : v.length = 32) (h : m.wf = true) :
    (bufWrite m k v).wf = true := by
  have hk : k.val < 32 := k.isLt
  refine memWrite_wf v m _ h ?_
  unfold slotAddr
  show 32 * k.val + v.length ≤ 1024
  rw [hv]
  omega

theorem reset_buf_wf : State.reset.buf.wf = true := rfl

/-! ## Byte strings in memory -/

/-- Read after write for a byte string inside BUF: the bytes written there, every other byte as before. -/
theorem memByte_memWrite : ∀ (bs : List Byte) (m : Memory) (a x : Nat), m.wf = true → a + bs.length ≤ Config.bufSize →
    memByte (memWrite m a bs) x = if h : a ≤ x ∧ x < a + bs.length then bs[x - a]'(by omega) else memByte m x := by
  intro bs
  induction bs with
  | nil =>
    intro m a x _ _
    rw [memWrite, dif_neg (by simp)]
  | cons b bs ih =>
    intro m a x h ha
    rw [List.length_cons] at ha
    rw [memWrite, ih _ _ _ (memStore_wf m a b h (by omega)) (by omega), memByte_memStore m 0 a b x h]
    by_cases hx : a = x
    · subst hx
      rw [dif_neg (by omega), if_pos rfl, dif_pos (by simp)]
      simp
    · by_cases hr : a + 1 ≤ x ∧ x < a + 1 + bs.length
      · rw [dif_pos hr, dif_pos (by rw [List.length_cons]; omega)]
        have e : x - a = (x - (a + 1)) + 1 := by omega
        simp [e]
      · rw [dif_neg hr, if_neg hx, dif_neg (by rw [List.length_cons]; omega)]

@[simp] theorem memRead_length (m : Memory) : ∀ (n a : Nat), (memRead m a n).length = n := by
  intro n
  induction n with
  | zero => intro a; rfl
  | succ n ih => intro a; rw [memRead, List.length_cons, ih]

theorem memRead_getElem (m : Memory) : ∀ (n a j : Nat) (h : j < (memRead m a n).length),
    (memRead m a n)[j] = memByte m (a + j) := by
  intro n
  induction n with
  | zero => intro a j h; simp [memRead] at h
  | succ n ih =>
    intro a j h
    cases j with
    | zero => simp [memRead]
    | succ j =>
      simp only [memRead, List.getElem_cons_succ]
      rw [ih]
      congr 1
      omega

/-! ## Byte strings and integers -/

@[simp] theorem leBytes_length : ∀ (n v : Nat), (leBytes n v).length = n := by
  intro n
  induction n with
  | zero => intro v; rfl
  | succ n ih => intro v; rw [leBytes, List.length_cons, ih]

@[simp] theorem le32_length (v : Nat) : (le32 v).length = 32 := leBytes_length 32 v

/-- Byte k of `leBytes` (`00_scope.md` R14). -/
theorem leBytes_getElem : ∀ (n v k : Nat) (h : k < (leBytes n v).length),
    (leBytes n v)[k] = BitVec.ofNat 8 (v / 256 ^ k) := by
  intro n
  induction n with
  | zero => intro v k h; simp [leBytes] at h
  | succ n ih =>
    intro v k h
    cases k with
    | zero => simp [leBytes]
    | succ k =>
      simp only [leBytes, List.getElem_cons_succ]
      rw [ih, Nat.div_div_eq_div_mul, pow_succ, Nat.mul_comm]

theorem leBytes_getElem_toNat (n v k : Nat) (h : k < (leBytes n v).length) :
    ((leBytes n v)[k]).toNat = v / 256 ^ k % 256 := by
  rw [leBytes_getElem]
  rfl

theorem fromLE_lt : ∀ bs : List Byte, fromLE bs < 256 ^ bs.length := by
  intro bs
  induction bs with
  | nil => simp [fromLE]
  | cons b bs ih =>
    rw [fromLE, List.length_cons, pow_succ]
    have := b.isLt
    omega

/-- `FromLE(LE32(n)) = n` (`00_scope.md` R14), for any number of bytes. -/
theorem fromLE_leBytes : ∀ (n v : Nat), v < 256 ^ n → fromLE (leBytes n v) = v := by
  intro n
  induction n with
  | zero => intro v h; simp at h; simp [leBytes, fromLE, h]
  | succ n ih =>
    intro v h
    rw [leBytes, fromLE, ih (v / 256) (by rw [pow_succ] at h; omega), BitVec.toNat_ofNat]
    omega

/-- `LE32(FromLE(b)) = b` (`00_scope.md` R14). -/
theorem leBytes_fromLE : ∀ bs : List Byte, leBytes bs.length (fromLE bs) = bs := by
  intro bs
  induction bs with
  | nil => rfl
  | cons b bs ih =>
    have hb := b.isLt
    have hd : (b.toNat + 256 * fromLE bs) / 256 = fromLE bs := by omega
    have hm : BitVec.ofNat 8 (b.toNat + 256 * fromLE bs) = b := by
      apply BitVec.eq_of_toNat_eq
      rw [BitVec.toNat_ofNat]
      omega
    rw [List.length_cons, fromLE, leBytes, hd, hm, ih]

/-- The integer of a byte string is determined by its bytes. -/
theorem fromLE_eq_of_bytes (bs : List Byte) (n : Nat) (hn : n < 256 ^ bs.length)
    (h : ∀ (j : Nat) (hj : j < bs.length), (bs[j]).toNat = n / 256 ^ j % 256) : fromLE bs = n := by
  have e : bs = leBytes bs.length n := by
    apply List.ext_getElem
    · rw [leBytes_length]
    · intro j h1 h2
      apply BitVec.eq_of_toNat_eq
      rw [h j h1, leBytes_getElem_toNat]
  rw [e, fromLE_leBytes _ _ hn]

/-- After a write of `n` bytes of `v` inside BUF, byte j of the written range is byte j of `v`. -/
theorem memByte_memWrite_leBytes (m : Memory) (a n v j : Nat) (h : m.wf = true) (ha : a + n ≤ Config.bufSize) (hj : j < n) :
    (memByte (memWrite m a (leBytes n v)) (a + j)).toNat = v / 256 ^ j % 256 := by
  have hlen := leBytes_length n v
  rw [memByte_memWrite _ m a _ h (by rw [hlen]; exact ha), dif_pos (by rw [hlen]; omega)]
  simp only [Nat.add_sub_cancel_left]
  exact leBytes_getElem_toNat n v j (by rw [hlen]; exact hj)

end Sys2Proof.Machine
end

