-- ==== Sys2Proof/Laws/Effect.lean ====
section
/-!
SUPPORT. What a command can do, said once for all 25: it is no command, or it ends with a nonzero code and only its
destination register is lost, or it writes exactly what its row of `10_state.md` R35 names and ends with 0x00
(`60_exceptions.md` R204). Proofs of frames and invariants start from `exec_cases`.
-/

namespace Sys2Proof.Machine

/-- `u` is `s` with the writes of a successful command of the row of `i` (`10_state.md` R35), whatever the values. -/
def Writes (i : Instr) (s u : State) : Prop :=
  match destOf i with
  | .f rd => ∃ (v : Fp) (b : Bool), (writesFlag i = false → b = s.flag) ∧ u = (s.setF rd (some v)).setFlag b
  | .s rd => ∃ v : Zl, u = s.setS rd (some v)
  | .p rd => ∃ A : Point, u = s.setP rd (some A)
  | .none =>
    match storeSlotOf i with
    | some k => ∃ v : List Byte, v.length = 32 ∧ u = s.setSlot k v
    | none => ∃ b : Bool, u = s.setFlag b

/-- What `exec i s = .next t` leaves to consider. -/
def Effect (i : Instr) (s t : State) : Prop :=
  (i.wellFormed = false ∧ t = s.setStatus .illegalCommand) ∨
  (∃ c, c ≠ .ok ∧ c ∈ codesOf i ∧ t = (s.invalidate (destOf i)).setStatus c) ∨
  (∃ u, Writes i s u ∧ t = u.setStatus .ok)

theorem effect_of_endCommand {i : Instr} {s t : State} {r : Except ResultCode State}
    (h : endCommand (destOf i) s r = .next t) (hc : ∀ c, r = .error c → c ≠ .ok ∧ c ∈ codesOf i)
    (hw : ∀ u, r = .ok u → Writes i s u) : Effect i s t := by
  rcases endCommand_cases h with ⟨u, hr, rfl⟩ | ⟨c, hr, rfl⟩
  · exact .inr (.inr ⟨u, hw u hr, rfl⟩)
  · exact .inr (.inl ⟨c, (hc c hr).1, (hc c hr).2, rfl⟩)

theorem rule1_error {α : Type} {a : Option α} {k : α → State} {c : ResultCode} (h : rule1 a k = .error c) :
    c = .invalidOperand := by
  cases a <;> cases h
  rfl

theorem rule1_ok {α : Type} {a : Option α} {k : α → State} {u : State} (h : rule1 a k = .ok u) :
    ∃ x, a = some x ∧ u = k x := by
  cases a with
  | none => cases h
  | some x => exact ⟨x, rfl, (Except.ok.inj h).symm⟩

theorem rule2_error {α β : Type} {a : Option α} {b : Option β} {k : α → β → State} {c : ResultCode}
    (h : rule2 a b k = .error c) : c = .invalidOperand := by
  cases a <;> cases b <;> cases h <;> rfl

theorem rule2_ok {α β : Type} {a : Option α} {b : Option β} {k : α → β → State} {u : State} (h : rule2 a b k = .ok u) :
    ∃ x y, a = some x ∧ b = some y ∧ u = k x y := by
  cases a with
  | none => cases h
  | some x =>
    cases b with
    | none => cases h
    | some y => exact ⟨x, y, rfl, rfl, (Except.ok.inj h).symm⟩

/-- A rule of two sources that may raise InvalidOperand and nothing else. -/
theorem effect_of_rule2 {α β : Type} {i : Instr} {s t : State} {a : Option α} {b : Option β} {k : α → β → State}
    (h : endCommand (destOf i) s (rule2 a b k) = .next t) (hc : .invalidOperand ∈ codesOf i)
    (hw : ∀ x y, Writes i s (k x y)) : Effect i s t := by
  refine effect_of_endCommand h (fun c hr => ?_) (fun u hr => ?_)
  · rw [rule2_error hr]
    exact ⟨by decide, hc⟩
  · obtain ⟨x, y, _, _, rfl⟩ := rule2_ok hr
    exact hw x y

theorem effect_of_rule1 {α : Type} {i : Instr} {s t : State} {a : Option α} {k : α → State}
    (h : endCommand (destOf i) s (rule1 a k) = .next t) (hc : .invalidOperand ∈ codesOf i)
    (hw : ∀ x, Writes i s (k x)) : Effect i s t := by
  refine effect_of_endCommand h (fun c hr => ?_) (fun u hr => ?_)
  · rw [rule1_error hr]
    exact ⟨by decide, hc⟩
  · obtain ⟨x, _, rfl⟩ := rule1_ok hr
    exact hw x

theorem effect_of_loadSlot {α : Type} {i : Instr} {s t : State} {dec : Nat → Except ResultCode α}
    {put : State → α → State} {slot : Slot} (h : loadSlot (destOf i) dec put slot s = .next t)
    (hc : ∀ n c, dec n = .error c → c ≠ .ok ∧ c ∈ codesOf i) (hw : ∀ v, Writes i s (put s v)) : Effect i s t := by
  refine effect_of_endCommand h (fun c hr => ?_) (fun u hr => ?_)
  · cases hd : dec (slotInt s slot) with
    | error e =>
      rw [hd] at hr
      exact hc _ c (by rw [hd]; exact congrArg _ (Except.error.inj hr))
    | ok v => rw [hd] at hr; cases hr
  · cases hd : dec (slotInt s slot) with
    | error e => rw [hd] at hr; cases hr
    | ok v =>
      rw [hd] at hr
      have hu := (Except.ok.inj hr).symm
      subst hu
      exact hw v

theorem effect_of_storeSlot {α : Type} {i : Instr} {s t : State} {a : Option α} {code : α → Nat} {slot : Slot}
    (hd : destOf i = .none) (h : storeSlot a code slot s = .next t) (hc : .invalidOperand ∈ codesOf i)
    (hw : ∀ x, Writes i s (s.setSlot slot (le32 (code x)))) : Effect i s t :=
  effect_of_rule1 (a := a) (k := fun v => s.setSlot slot (le32 (code v))) (by rw [hd]; exact h) hc hw

theorem fpDecode_code {n : Nat} {c : ResultCode} (h : fpDecode n = .error c) : c = .nonCanonicalEncoding := by
  unfold fpDecode at h
  split at h <;> cases h
  rfl

theorem zlDecode_code {n : Nat} {c : ResultCode} (h : zlDecode n = .error c) : c = .nonCanonicalEncoding := by
  unfold zlDecode at h
  split at h <;> cases h
  rfl

theorem pointDecode_code {n : Nat} {c : ResultCode} (h : pointDecode n = .error c) :
    c = .nonCanonicalEncoding ∨ c = .pointDecompressionFailure := by
  unfold pointDecode at h
  cases hy : fpDecode (n % 2 ^ 255) with
  | error e =>
    rw [hy] at h
    exact .inl ((Except.error.inj h).symm.trans (fpDecode_code hy))
  | ok y =>
    rw [hy] at h
    change pointFromY y (n / 2 ^ 255) = .error c at h
    rw [pointFromY] at h
    cases hr : fpSqrt (xSquared y) with
    | none =>
      rw [hr, pointFromRoot] at h
      exact .inr (Except.error.inj h).symm
    | some x =>
      rw [hr, pointFromRoot] at h
      split at h
      · exact .inr (Except.error.inj h).symm
      · cases h

/-- The rule of PMSM raises LengthMismatch or InvalidOperand, or writes its destination. -/
theorem pmsmRule_cases (rd : PReg) (ra : SReg) (rb : PReg) (nsm1 npm1 : CountField) (s : State) :
    pmsmRule rd ra rb nsm1 npm1 s = .error .lengthMismatch ∨ pmsmRule rd ra rb nsm1 npm1 s = .error .invalidOperand ∨
      ∃ ss As, readRun s.sReg ra.val (nsm1.val + 1) = .ok ss ∧ readRun s.pReg rb.val (npm1.val + 1) = .ok As ∧
        pmsmRule rd ra rb nsm1 npm1 s = .ok (s.setP rd (some (pointMultiSum ss As))) := by
  unfold pmsmRule
  by_cases hn : nsm1 = npm1
  · rw [if_neg (not_not.2 hn)]
    cases h1 : readRun s.sReg ra.val (nsm1.val + 1) with
    | error c => exact .inr (.inl (by rw [readRun_code _ _ _ _ h1]))
    | ok ss =>
      cases h2 : readRun s.pReg rb.val (npm1.val + 1) with
      | error c => exact .inr (.inl (by rw [readRun_code _ _ _ _ h2]))
      | ok As => exact .inr (.inr ⟨ss, As, rfl, rfl, rfl⟩)
  · rw [if_pos hn]
    exact .inl rfl

/-- What a command can do. -/
theorem exec_cases {i : Instr} {s t : State} (h : exec i s = .next t) : Effect i s t := by
  have keepF : ∀ (j : Instr) (rd : FReg) (v : Fp), destOf j = .f rd → Writes j s (s.setF rd (some v)) := by
    intro j rd v hd
    unfold Writes
    rw [hd]
    exact ⟨v, s.flag, fun _ => rfl, rfl⟩
  cases i
  case fadd rd ra rb =>
    rw [exec_fadd] at h
    exact effect_of_rule2 (i := .fadd rd ra rb) h (by simp [codesOf]) fun a b => keepF _ rd _ rfl
  case fsub rd ra rb =>
    rw [exec_fsub] at h
    exact effect_of_rule2 (i := .fsub rd ra rb) h (by simp [codesOf]) fun a b => keepF _ rd _ rfl
  case fneg rd ra =>
    rw [exec_fneg] at h
    exact effect_of_rule1 (i := .fneg rd ra) h (by simp [codesOf]) fun a => keepF _ rd _ rfl
  case fmul rd ra rb =>
    rw [exec_fmul] at h
    exact effect_of_rule2 (i := .fmul rd ra rb) h (by simp [codesOf]) fun a b => keepF _ rd _ rfl
  case fsqr rd ra =>
    rw [exec_fsqr] at h
    exact effect_of_rule1 (i := .fsqr rd ra) h (by simp [codesOf]) fun a => keepF _ rd _ rfl
  case finv rd ra =>
    rw [exec_finv] at h
    refine effect_of_endCommand (i := .finv rd ra) h ?_ ?_
    · intro c hr
      cases ha : s.getF ra with
      | none =>
        rw [ha, need_none] at hr
        rw [← Except.error.inj hr]
        simp [codesOf]
      | some a =>
        rw [ha, need_some] at hr
        dsimp only at hr
        split at hr
        · rw [← Except.error.inj hr]
          simp [codesOf]
        · cases hr
    · intro u hr
      cases ha : s.getF ra with
      | none => rw [ha, need_none] at hr; cases hr
      | some a =>
        rw [ha, need_some] at hr
        dsimp only at hr
        split at hr
        · cases hr
        · rw [← Except.ok.inj hr]
          exact keepF _ rd _ rfl
  case fisqrt rd ra =>
    rw [exec_fisqrt] at h
    exact effect_of_rule1 (i := .fisqrt rd ra) h (by simp [codesOf]) fun a =>
      ⟨_, _, fun hf => Bool.noConfusion hf, rfl⟩
  case fsel rd ra rb =>
    rw [exec_fsel] at h
    exact effect_of_rule2 (i := .fsel rd ra rb) h (by simp [codesOf]) fun a b => keepF _ rd _ rfl
  case fld rd slot =>
    rw [exec_fld] at h
    refine effect_of_loadSlot (i := .fld rd slot) h (fun n c hc => ?_) fun v => keepF _ rd _ rfl
    rw [fpDecode_code hc]
    simp [codesOf]
  case fst slot ra =>
    rw [exec_fst] at h
    exact effect_of_storeSlot (i := .fst slot ra) rfl h (by simp [codesOf]) fun a => ⟨_, le32_length _, rfl⟩
  case sadd rd ra rb =>
    rw [exec_sadd] at h
    exact effect_of_rule2 (i := .sadd rd ra rb) h (by simp [codesOf]) fun a b => ⟨_, rfl⟩
  case smul rd ra rb =>
    rw [exec_smul] at h
    exact effect_of_rule2 (i := .smul rd ra rb) h (by simp [codesOf]) fun a b => ⟨_, rfl⟩
  case szero rd =>
    rw [exec_szero] at h
    exact effect_of_endCommand (i := .szero rd) h (fun c hr => by cases hr) fun u hr => ⟨toZl 0, (Except.ok.inj hr).symm⟩
  case sone rd =>
    rw [exec_sone] at h
    exact effect_of_endCommand (i := .sone rd) h (fun c hr => by cases hr) fun u hr => ⟨toZl 1, (Except.ok.inj hr).symm⟩
  case sld rd slot =>
    rw [exec_sld] at h
    refine effect_of_loadSlot (i := .sld rd slot) h (fun n c hc => ?_) fun v => ⟨v, rfl⟩
    rw [zlDecode_code hc]
    simp [codesOf]
  case sst slot ra =>
    rw [exec_sst] at h
    exact effect_of_storeSlot (i := .sst slot ra) rfl h (by simp [codesOf]) fun a => ⟨_, le32_length _, rfl⟩
  case pident rd =>
    rw [exec_pident] at h
    exact effect_of_endCommand (i := .pident rd) h (fun c hr => by cases hr) fun u hr =>
      ⟨pointIdentity, (Except.ok.inj hr).symm⟩
  case padd rd ra rb =>
    rw [exec_padd] at h
    exact effect_of_rule2 (i := .padd rd ra rb) h (by simp [codesOf]) fun a b => ⟨_, rfl⟩
  case pdbl rd ra =>
    rw [exec_pdbl] at h
    exact effect_of_rule1 (i := .pdbl rd ra) h (by simp [codesOf]) fun a => ⟨_, rfl⟩
  case pneg rd ra =>
    rw [exec_pneg] at h
    exact effect_of_rule1 (i := .pneg rd ra) h (by simp [codesOf]) fun a => ⟨_, rfl⟩
  case psmul rd ra rb vt =>
    rw [exec_psmul] at h
    exact effect_of_rule2 (i := .psmul rd ra rb vt) h (by simp [codesOf]) fun a b => ⟨_, rfl⟩
  case peq ra rb =>
    rw [exec_peq] at h
    exact effect_of_rule2 (i := .peq ra rb) h (by simp [codesOf]) fun a b => ⟨_, rfl⟩
  case pdec rd slot =>
    rw [exec_pdec] at h
    refine effect_of_loadSlot (i := .pdec rd slot) h (fun n c hc => ?_) fun v => ⟨v, rfl⟩
    rcases pointDecode_code hc with rfl | rfl <;> simp [codesOf]
  case penc slot ra =>
    rw [exec_penc] at h
    exact effect_of_storeSlot (i := .penc slot ra) rfl h (by simp [codesOf]) fun a => ⟨_, le32_length _, rfl⟩
  case pmsm rd ra rb nsm1 npm1 vt =>
    rw [exec_pmsm] at h
    split at h
    · refine effect_of_endCommand (i := .pmsm rd ra rb nsm1 npm1 vt) h ?_ ?_
      · intro c hr
        rcases pmsmRule_cases rd ra rb nsm1 npm1 s with he | he | ⟨ss, As, _, _, he⟩
        · rw [he] at hr
          rw [← Except.error.inj hr]
          simp [codesOf]
        · rw [he] at hr
          rw [← Except.error.inj hr]
          simp [codesOf]
        · rw [he] at hr
          cases hr
      · intro u hr
        rcases pmsmRule_cases rd ra rb nsm1 npm1 s with he | he | ⟨ss, As, _, _, he⟩
        · rw [he] at hr
          cases hr
        · rw [he] at hr
          cases hr
        · rw [he] at hr
          exact ⟨_, (Except.ok.inj hr).symm⟩
    · rename_i hw
      exact .inl ⟨Bool.not_eq_true _ ▸ hw, (Host.Outcome.next.inj h).symm⟩

end Sys2Proof.Machine
end

