-- ==== Sys2Proof/Laws/Encode.lean ====
section
/-!
SUPPORT. The bits of a command word. Masking and field extraction distribute over the fields a word is made of; a field
placed in a word is read back by its own extraction and by no other; a field read from a word and placed again is the word's
bits there. Proofs about `encode` and `decode` rewrite with these.
-/

namespace Sys2Proof

theorem or_mask (a b m : Word) : (a ||| b) &&& m = (a &&& m) ||| (b &&& m) := by
  ext i hi
  simp [Bool.and_or_distrib_right]

theorem mask_or (w m n : Word) : (w &&& m) ||| (w &&& n) = w &&& (m ||| n) := by
  ext i hi
  simp [Bool.and_or_distrib_left]

@[simp] theorem place_zero (lo : Nat) : place 0 lo = 0#32 := by simp [place]

/-- A well-formed command whose word matches its row passes the decoder's tests. -/
theorem strict_ok {fmt : Format} {op : BitVec 8} {w : Word} {i : Instr} (h : w &&& formatMask fmt = op.setWidth 32)
    (hw : i.wellFormed = true) : strict fmt op w i = .ok i := by
  simp [strict, h, hw]

/-- A word that passes the decoder's tests matches its row, and its command is well formed. -/
theorem strict_cases {fmt : Format} {op : BitVec 8} {w : Word} {i j : Instr} (h : strict fmt op w i = .ok j) :
    w &&& formatMask fmt = op.setWidth 32 ∧ i.wellFormed = true ∧ j = i := by
  unfold strict at h
  split at h
  · cases h
  · rename_i hm
    split at h
    · rename_i hw
      exact ⟨not_not.1 hm, hw, (Except.ok.inj h).symm⟩
    · cases h

/-! ## Fields of a union -/

theorem opField_or (a b : Word) : opField (a ||| b) = opField a ||| opField b := by
  simp [opField, BitVec.extractLsb, BitVec.extractLsb'_or]

theorem rdField_or (a b : Word) : (rdField (a ||| b)).val = (rdField a).val ||| (rdField b).val := by
  show ((a ||| b).extractLsb 11 8).toNat = _
  rw [BitVec.extractLsb, BitVec.extractLsb'_or, BitVec.toNat_or]
  rfl

theorem raField_or (a b : Word) : (raField (a ||| b)).val = (raField a).val ||| (raField b).val := by
  show ((a ||| b).extractLsb 15 12).toNat = _
  rw [BitVec.extractLsb, BitVec.extractLsb'_or, BitVec.toNat_or]
  rfl

theorem rbField_or (a b : Word) : (rbField (a ||| b)).val = (rbField a).val ||| (rbField b).val := by
  show ((a ||| b).extractLsb 19 16).toNat = _
  rw [BitVec.extractLsb, BitVec.extractLsb'_or, BitVec.toNat_or]
  rfl

theorem slotField_or (a b : Word) : (slotField (a ||| b)).val = (slotField a).val ||| (slotField b).val := by
  show ((a ||| b).extractLsb 20 16).toNat = _
  rw [BitVec.extractLsb, BitVec.extractLsb'_or, BitVec.toNat_or]
  rfl

theorem nsm1Field_or (a b : Word) : (nsm1Field (a ||| b)).val = (nsm1Field a).val ||| (nsm1Field b).val := by
  show ((a ||| b).extractLsb 23 20).toNat = _
  rw [BitVec.extractLsb, BitVec.extractLsb'_or, BitVec.toNat_or]
  rfl

theorem npm1Field_or (a b : Word) : (npm1Field (a ||| b)).val = (npm1Field a).val ||| (npm1Field b).val := by
  show ((a ||| b).extractLsb 27 24).toNat = _
  rw [BitVec.extractLsb, BitVec.extractLsb'_or, BitVec.toNat_or]
  rfl

theorem vtField_or (a b : Word) : vtField (a ||| b) = (vtField a || vtField b) := by simp [vtField]

/-! ## Each placed field is read back by its own extraction and by no other -/

@[simp] theorem opField_place_op (n : Nat) : opField (place n 0) = BitVec.ofNat 8 n := by
  apply BitVec.eq_of_toNat_eq
  simp [opField, place]

theorem place_op_div (n k : Nat) (h : n < 256) (hk : 8 ≤ k) : (place n 0).toNat >>> k = 0 := by
  have h2 : (place n 0).toNat < 2 ^ 8 := by
    simp [place]
    omega
  rw [Nat.shiftRight_eq_div_pow]
  exact Nat.div_eq_of_lt (Nat.lt_of_lt_of_le h2 (Nat.pow_le_pow_right (by decide) hk))

theorem rdField_place_op (n : Nat) (h : n < 256) : (rdField (place n 0)).val = 0 := by
  show (place n 0).toNat >>> 8 % _ = 0
  rw [place_op_div n 8 h (by decide), Nat.zero_mod]

theorem raField_place_op (n : Nat) (h : n < 256) : (raField (place n 0)).val = 0 := by
  show (place n 0).toNat >>> 12 % _ = 0
  rw [place_op_div n 12 h (by decide), Nat.zero_mod]

theorem rbField_place_op (n : Nat) (h : n < 256) : (rbField (place n 0)).val = 0 := by
  show (place n 0).toNat >>> 16 % _ = 0
  rw [place_op_div n 16 h (by decide), Nat.zero_mod]

theorem slotField_place_op (n : Nat) (h : n < 256) : (slotField (place n 0)).val = 0 := by
  show (place n 0).toNat >>> 16 % _ = 0
  rw [place_op_div n 16 h (by decide), Nat.zero_mod]

theorem nsm1Field_place_op (n : Nat) (h : n < 256) : (nsm1Field (place n 0)).val = 0 := by
  show (place n 0).toNat >>> 20 % _ = 0
  rw [place_op_div n 20 h (by decide), Nat.zero_mod]

theorem npm1Field_place_op (n : Nat) (h : n < 256) : (npm1Field (place n 0)).val = 0 := by
  show (place n 0).toNat >>> 24 % _ = 0
  rw [place_op_div n 24 h (by decide), Nat.zero_mod]

theorem vtField_place_op (n : Nat) (h : n < 256) : vtField (place n 0) = false := by
  show (place n 0).toNat.testBit 28 = false
  rw [Nat.testBit_eq_decide_div_mod_eq, ← Nat.shiftRight_eq_div_pow, place_op_div n 28 h (by decide)]
  rfl

@[simp] theorem opField_place_rd : ∀ r : Fin 16, opField (place r.val 8) = 0#8 := by decide

@[simp] theorem rdField_place_rd : ∀ r : Fin 16, (rdField (place r.val 8)).val = r.val := by decide

@[simp] theorem raField_place_rd : ∀ r : Fin 16, (raField (place r.val 8)).val = 0 := by decide

@[simp] theorem rbField_place_rd : ∀ r : Fin 16, (rbField (place r.val 8)).val = 0 := by decide

@[simp] theorem slotField_place_rd : ∀ r : Fin 16, (slotField (place r.val 8)).val = 0 := by decide

@[simp] theorem nsm1Field_place_rd : ∀ r : Fin 16, (nsm1Field (place r.val 8)).val = 0 := by decide

@[simp] theorem npm1Field_place_rd : ∀ r : Fin 16, (npm1Field (place r.val 8)).val = 0 := by decide

@[simp] theorem vtField_place_rd : ∀ r : Fin 16, vtField (place r.val 8) = false := by decide

@[simp] theorem opField_place_ra : ∀ r : Fin 16, opField (place r.val 12) = 0#8 := by decide

@[simp] theorem rdField_place_ra : ∀ r : Fin 16, (rdField (place r.val 12)).val = 0 := by decide

@[simp] theorem raField_place_ra : ∀ r : Fin 16, (raField (place r.val 12)).val = r.val := by decide

@[simp] theorem rbField_place_ra : ∀ r : Fin 16, (rbField (place r.val 12)).val = 0 := by decide

@[simp] theorem slotField_place_ra : ∀ r : Fin 16, (slotField (place r.val 12)).val = 0 := by decide

@[simp] theorem nsm1Field_place_ra : ∀ r : Fin 16, (nsm1Field (place r.val 12)).val = 0 := by decide

@[simp] theorem npm1Field_place_ra : ∀ r : Fin 16, (npm1Field (place r.val 12)).val = 0 := by decide

@[simp] theorem vtField_place_ra : ∀ r : Fin 16, vtField (place r.val 12) = false := by decide

@[simp] theorem opField_place_rb : ∀ r : Fin 16, opField (place r.val 16) = 0#8 := by decide

@[simp] theorem rdField_place_rb : ∀ r : Fin 16, (rdField (place r.val 16)).val = 0 := by decide

@[simp] theorem raField_place_rb : ∀ r : Fin 16, (raField (place r.val 16)).val = 0 := by decide

@[simp] theorem rbField_place_rb : ∀ r : Fin 16, (rbField (place r.val 16)).val = r.val := by decide

@[simp] theorem nsm1Field_place_rb : ∀ r : Fin 16, (nsm1Field (place r.val 16)).val = 0 := by decide

@[simp] theorem npm1Field_place_rb : ∀ r : Fin 16, (npm1Field (place r.val 16)).val = 0 := by decide

@[simp] theorem vtField_place_rb : ∀ r : Fin 16, vtField (place r.val 16) = false := by decide

@[simp] theorem opField_place_slot : ∀ r : Fin 32, opField (place r.val 16) = 0#8 := by decide

@[simp] theorem rdField_place_slot : ∀ r : Fin 32, (rdField (place r.val 16)).val = 0 := by decide

@[simp] theorem raField_place_slot : ∀ r : Fin 32, (raField (place r.val 16)).val = 0 := by decide

@[simp] theorem slotField_place_slot : ∀ r : Fin 32, (slotField (place r.val 16)).val = r.val := by decide

@[simp] theorem npm1Field_place_slot : ∀ r : Fin 32, (npm1Field (place r.val 16)).val = 0 := by decide

@[simp] theorem vtField_place_slot : ∀ r : Fin 32, vtField (place r.val 16) = false := by decide

@[simp] theorem opField_place_nsm1 : ∀ r : Fin 16, opField (place r.val 20) = 0#8 := by decide

@[simp] theorem rdField_place_nsm1 : ∀ r : Fin 16, (rdField (place r.val 20)).val = 0 := by decide

@[simp] theorem raField_place_nsm1 : ∀ r : Fin 16, (raField (place r.val 20)).val = 0 := by decide

@[simp] theorem rbField_place_nsm1 : ∀ r : Fin 16, (rbField (place r.val 20)).val = 0 := by decide

@[simp] theorem nsm1Field_place_nsm1 : ∀ r : Fin 16, (nsm1Field (place r.val 20)).val = r.val := by decide

@[simp] theorem npm1Field_place_nsm1 : ∀ r : Fin 16, (npm1Field (place r.val 20)).val = 0 := by decide

@[simp] theorem vtField_place_nsm1 : ∀ r : Fin 16, vtField (place r.val 20) = false := by decide

@[simp] theorem opField_place_npm1 : ∀ r : Fin 16, opField (place r.val 24) = 0#8 := by decide

@[simp] theorem rdField_place_npm1 : ∀ r : Fin 16, (rdField (place r.val 24)).val = 0 := by decide

@[simp] theorem raField_place_npm1 : ∀ r : Fin 16, (raField (place r.val 24)).val = 0 := by decide

@[simp] theorem rbField_place_npm1 : ∀ r : Fin 16, (rbField (place r.val 24)).val = 0 := by decide

@[simp] theorem slotField_place_npm1 : ∀ r : Fin 16, (slotField (place r.val 24)).val = 0 := by decide

@[simp] theorem nsm1Field_place_npm1 : ∀ r : Fin 16, (nsm1Field (place r.val 24)).val = 0 := by decide

@[simp] theorem npm1Field_place_npm1 : ∀ r : Fin 16, (npm1Field (place r.val 24)).val = r.val := by decide

@[simp] theorem vtField_place_npm1 : ∀ r : Fin 16, vtField (place r.val 24) = false := by decide

@[simp] theorem opField_place_vt : ∀ b : Bool, opField (place b.toNat 28) = 0#8 := by decide

@[simp] theorem rdField_place_vt : ∀ b : Bool, (rdField (place b.toNat 28)).val = 0 := by decide

@[simp] theorem raField_place_vt : ∀ b : Bool, (raField (place b.toNat 28)).val = 0 := by decide

@[simp] theorem rbField_place_vt : ∀ b : Bool, (rbField (place b.toNat 28)).val = 0 := by decide

@[simp] theorem slotField_place_vt : ∀ b : Bool, (slotField (place b.toNat 28)).val = 0 := by decide

@[simp] theorem nsm1Field_place_vt : ∀ b : Bool, (nsm1Field (place b.toNat 28)).val = 0 := by decide

@[simp] theorem npm1Field_place_vt : ∀ b : Bool, (npm1Field (place b.toNat 28)).val = 0 := by decide

@[simp] theorem vtField_place_vt : ∀ b : Bool, vtField (place b.toNat 28) = b := by decide

/-! ## Fields placed again -/

theorem place_opField (w : Word) : (opField w).setWidth 32 = w &&& 0x000000FF#32 := by
  apply BitVec.eq_of_toNat_eq
  have h : 0xFF = 2 ^ 8 - 1 := rfl
  simp only [opField, BitVec.extractLsb, BitVec.toNat_setWidth, BitVec.extractLsb'_toNat, BitVec.toNat_and, BitVec.toNat_ofNat]
  rw [show (255 % 2 ^ 32 : Nat) = 2 ^ 8 - 1 from rfl, Nat.and_two_pow_sub_one_eq_mod]
  simp
  omega

/-- The bits lo .. lo + n − 1 of a word, as a number placed at lo, are the word masked there. -/
theorem place_bits (w : Word) (lo n : Nat) :
    place (w.extractLsb' lo n).toNat lo = w &&& (BitVec.allOnes n).setWidth 32 <<< lo := by
  apply BitVec.eq_of_getLsbD_eq
  intro i hi
  have hv : (BitVec.ofNat 32 (w.extractLsb' lo n).toNat).getLsbD (i - lo) =
      (decide (i - lo < 32) && (decide (i - lo < n) && w.getLsbD (lo + (i - lo)))) := by
    rw [BitVec.getLsbD_ofNat, BitVec.testBit_toNat, BitVec.getLsbD_extractLsb']
  unfold place
  rw [BitVec.getLsbD_shiftLeft, hv, BitVec.getLsbD_and, BitVec.getLsbD_shiftLeft, BitVec.getLsbD_setWidth,
    BitVec.getLsbD_allOnes]
  by_cases hlo : i < lo
  · simp [hlo]
  · have e : lo + (i - lo) = i := by omega
    rw [e]
    cases w.getLsbD i <;> simp

theorem place_rdField (w : Word) : place (rdField w).val 8 = w &&& 0x00000F00#32 := by
  have h := place_bits w 8 4
  exact h.trans (congrArg (w &&& ·) (by decide))

theorem place_raField (w : Word) : place (raField w).val 12 = w &&& 0x0000F000#32 := by
  have h := place_bits w 12 4
  exact h.trans (congrArg (w &&& ·) (by decide))

theorem place_rbField (w : Word) : place (rbField w).val 16 = w &&& 0x000F0000#32 := by
  have h := place_bits w 16 4
  exact h.trans (congrArg (w &&& ·) (by decide))

theorem place_slotField (w : Word) : place (slotField w).val 16 = w &&& 0x001F0000#32 := by
  have h := place_bits w 16 5
  exact h.trans (congrArg (w &&& ·) (by decide))

theorem place_nsm1Field (w : Word) : place (nsm1Field w).val 20 = w &&& 0x00F00000#32 := by
  have h := place_bits w 20 4
  exact h.trans (congrArg (w &&& ·) (by decide))

theorem place_npm1Field (w : Word) : place (npm1Field w).val 24 = w &&& 0x0F000000#32 := by
  have h := place_bits w 24 4
  exact h.trans (congrArg (w &&& ·) (by decide))

theorem place_vtField (w : Word) : place (vtField w).toNat 28 = w &&& 0x10000000#32 := by
  have h := place_bits w 28 1
  have e : (w.extractLsb' 28 1).toNat = (vtField w).toNat := by
    rw [BitVec.extractLsb'_toNat, vtField, ← BitVec.testBit_toNat, Nat.testBit_eq_decide_div_mod_eq, Nat.shiftRight_eq_div_pow]
    rcases Nat.mod_two_eq_zero_or_one (w.toNat / 2 ^ 28) with h | h <;> rw [h] <;> rfl
  rw [← e]
  exact h.trans (congrArg (w &&& ·) (by decide))

end Sys2Proof
end

