-- ==== Sys2Proof/Laws/HostWindow.lean ====
section
/-!
SUPPORT. The host window: which accesses are permitted, written out (`20_memory.md` R53 to R55); what a permitted and a
reserved access do; and the equations of a run of steps.
-/

namespace Sys2Proof.Machine

open Sys2Proof.Config

theorem isBufAccess_iff (offset width : Nat) : isBufAccess offset width = true ↔
    (width = 1 ∨ width = 2 ∨ width = 4) ∧ offset % width = 0 ∧ 0x400 ≤ offset ∧ offset + width ≤ 0x800 := by
  have e : bufOffset + bufSize = 0x800 := rfl
  unfold isBufAccess
  rw [e]
  simp only [Bool.or_eq_true, Bool.and_eq_true, decide_eq_true_eq]
  rw [show bufOffset = 0x400 from rfl]
  tauto

theorem isControlAccess_iff (offset width : Nat) : isControlAccess offset width = true ↔
    width = 4 ∧ (offset = 0x000 ∨ offset = 0x004 ∨ offset = 0x008 ∨ offset = 0x00C) := by
  unfold isControlAccess
  simp only [Bool.or_eq_true, Bool.and_eq_true, decide_eq_true_eq]
  rw [show cmdOffset = 0x000 from rfl, show statusOffset = 0x004 from rfl, show flagOffset = 0x008 from rfl,
    show resetOffset = 0x00C from rfl]
  tauto

theorem isPermitted_iff (offset width : Nat) : isPermitted offset width = true ↔
    ((width = 1 ∨ width = 2 ∨ width = 4) ∧ offset % width = 0 ∧ 0x400 ≤ offset ∧ offset + width ≤ 0x800) ∨
      (width = 4 ∧ (offset = 0x000 ∨ offset = 0x004 ∨ offset = 0x008 ∨ offset = 0x00C)) := by
  rw [← isBufAccess_iff, ← isControlAccess_iff, isPermitted, Bool.or_eq_true]

/-- No access is both one of BUF and one of a control register. -/
theorem not_isBufAccess_of_isControlAccess {offset width : Nat} (h : isControlAccess offset width = true) :
    isBufAccess offset width = false := by
  rw [isControlAccess_iff] at h
  rw [← Bool.not_eq_true, isBufAccess_iff]
  omega

theorem perform_read (offset width : Nat) (s : State) (h : isPermitted offset width = true) :
    perform (.read offset width) s = .next { s with response := some (hostReadValue offset width s) } := by
  simp only [perform, h, if_true]

theorem perform_write (offset width : Nat) (v : Word) (s : State) (h : isPermitted offset width = true) :
    perform (.write offset width v) s = hostWrite offset width v { s with response := none } := by
  simp only [perform, h, if_true]

theorem hostWrite_buf (offset width : Nat) (v : Word) (s : State) (h : isBufAccess offset width = true) :
    hostWrite offset width v s =
      .next { s with buf := memWrite s.buf (offset - bufOffset) (leBytes width v.toNat) } := by
  simp only [hostWrite, h, if_true]

theorem hostReadValue_buf (offset width : Nat) (s : State) (h : isBufAccess offset width = true) :
    hostReadValue offset width s = BitVec.ofNat 32 (fromLE (memRead s.buf (offset - bufOffset) width)) := by
  simp only [hostReadValue, h, if_true]

/-- The opcode table's word of 32 bits is the word itself (`30_encoding.md` R70). -/
theorem tableWord_toNat (w : Word) : tableWord 32 w.toNat = w := by
  apply BitVec.eq_of_toNat_eq
  rw [tableWord, BitVec.toNat_ofNat, Nat.mod_mod, Nat.mod_eq_of_lt w.isLt]

/-! ## Runs -/

theorem run_zero (s : State) : Host.Core.run core 0 s = .next s := rfl

theorem run_succ (n : Nat) (s t : State) (h : step s = .next t) :
    Host.Core.run core (n + 1) s = Host.Core.run core n t := by
  have e : core.step s = .next t := h
  exact (Host.Core.run.eq_2 core s n).trans (by rw [e])

end Sys2Proof.Machine
end

