-- ==== Sys2Proof/Laws/PerInstr.lean ====
section
/-!
SUPPORT. Per instruction: the word of a command carries the `match` value of its row under the mask of its format
(`30_encoding.md` R72, R73).
-/

namespace Sys2Proof.Laws.RowForm

/-- The `match` of the command's row, under its format's mask (`30_encoding.md` R73). -/
def Statement (i : Instr) : Prop :=
  match i with
  | .fadd _ _ _ => encode i &&& formatMask .r3 = 0x10#32
  | .fsub _ _ _ => encode i &&& formatMask .r3 = 0x11#32
  | .fneg _ _ => encode i &&& formatMask .r2 = 0x12#32
  | .fmul _ _ _ => encode i &&& formatMask .r3 = 0x13#32
  | .fsqr _ _ => encode i &&& formatMask .r2 = 0x14#32
  | .finv _ _ => encode i &&& formatMask .r2 = 0x15#32
  | .fisqrt _ _ => encode i &&& formatMask .r2 = 0x16#32
  | .fsel _ _ _ => encode i &&& formatMask .r3 = 0x17#32
  | .fld _ _ => encode i &&& formatMask .ld = 0x18#32
  | .fst _ _ => encode i &&& formatMask .st = 0x19#32
  | .sadd _ _ _ => encode i &&& formatMask .r3 = 0x20#32
  | .smul _ _ _ => encode i &&& formatMask .r3 = 0x21#32
  | .szero _ => encode i &&& formatMask .r1 = 0x22#32
  | .sone _ => encode i &&& formatMask .r1 = 0x23#32
  | .sld _ _ => encode i &&& formatMask .ld = 0x28#32
  | .sst _ _ => encode i &&& formatMask .st = 0x29#32
  | .pident _ => encode i &&& formatMask .r1 = 0x30#32
  | .padd _ _ _ => encode i &&& formatMask .r3 = 0x31#32
  | .pdbl _ _ => encode i &&& formatMask .r2 = 0x32#32
  | .pneg _ _ => encode i &&& formatMask .r2 = 0x33#32
  | .psmul _ _ _ _ => encode i &&& formatMask .sm = 0x34#32
  | .peq _ _ => encode i &&& formatMask .cmp = 0x35#32
  | .pdec _ _ => encode i &&& formatMask .ld = 0x38#32
  | .penc _ _ => encode i &&& formatMask .st = 0x39#32
  | .pmsm _ _ _ _ _ _ => encode i &&& formatMask .v = 0x40#32

/-! A field that a format uses lies outside its mask. -/

theorem r3_rd : ∀ r : Fin 16, place r.val 8 &&& formatMask .r3 = 0#32 := by decide

theorem r3_ra : ∀ r : Fin 16, place r.val 12 &&& formatMask .r3 = 0#32 := by decide

theorem r3_rb : ∀ r : Fin 16, place r.val 16 &&& formatMask .r3 = 0#32 := by decide

theorem r2_rd : ∀ r : Fin 16, place r.val 8 &&& formatMask .r2 = 0#32 := by decide

theorem r2_ra : ∀ r : Fin 16, place r.val 12 &&& formatMask .r2 = 0#32 := by decide

theorem r1_rd : ∀ r : Fin 16, place r.val 8 &&& formatMask .r1 = 0#32 := by decide

theorem cmp_ra : ∀ r : Fin 16, place r.val 12 &&& formatMask .cmp = 0#32 := by decide

theorem cmp_rb : ∀ r : Fin 16, place r.val 16 &&& formatMask .cmp = 0#32 := by decide

theorem sm_rd : ∀ r : Fin 16, place r.val 8 &&& formatMask .sm = 0#32 := by decide

theorem sm_ra : ∀ r : Fin 16, place r.val 12 &&& formatMask .sm = 0#32 := by decide

theorem sm_rb : ∀ r : Fin 16, place r.val 16 &&& formatMask .sm = 0#32 := by decide

theorem sm_vt : ∀ b : Bool, place b.toNat 28 &&& formatMask .sm = 0#32 := by decide

theorem ld_rd : ∀ r : Fin 16, place r.val 8 &&& formatMask .ld = 0#32 := by decide

theorem ld_slot : ∀ r : Fin 32, place r.val 16 &&& formatMask .ld = 0#32 := by decide

theorem st_ra : ∀ r : Fin 16, place r.val 12 &&& formatMask .st = 0#32 := by decide

theorem st_slot : ∀ r : Fin 32, place r.val 16 &&& formatMask .st = 0#32 := by decide

theorem v_rd : ∀ r : Fin 16, place r.val 8 &&& formatMask .v = 0#32 := by decide

theorem v_ra : ∀ r : Fin 16, place r.val 12 &&& formatMask .v = 0#32 := by decide

theorem v_rb : ∀ r : Fin 16, place r.val 16 &&& formatMask .v = 0#32 := by decide

theorem v_nsm1 : ∀ r : Fin 16, place r.val 20 &&& formatMask .v = 0#32 := by decide

theorem v_npm1 : ∀ r : Fin 16, place r.val 24 &&& formatMask .v = 0#32 := by decide

theorem v_vt : ∀ b : Bool, place b.toNat 28 &&& formatMask .v = 0#32 := by decide

/-! One lemma per command. -/

theorem fadd (rd : Fin Config.nReg) (ra : Fin Config.nReg) (rb : Fin Config.nReg) : Statement (.fadd rd ra rb) := by
  show encode _ &&& formatMask _ = _
  simp only [encode, encodeReg, or_mask, r3_rd, r3_ra, r3_rb]
  decide

theorem fsub (rd : Fin Config.nReg) (ra : Fin Config.nReg) (rb : Fin Config.nReg) : Statement (.fsub rd ra rb) := by
  show encode _ &&& formatMask _ = _
  simp only [encode, encodeReg, or_mask, r3_rd, r3_ra, r3_rb]
  decide

theorem fneg (rd : Fin Config.nReg) (ra : Fin Config.nReg) : Statement (.fneg rd ra) := by
  show encode _ &&& formatMask _ = _
  simp only [encode, encodeReg, or_mask, r2_rd, r2_ra]
  decide

theorem fmul (rd : Fin Config.nReg) (ra : Fin Config.nReg) (rb : Fin Config.nReg) : Statement (.fmul rd ra rb) := by
  show encode _ &&& formatMask _ = _
  simp only [encode, encodeReg, or_mask, r3_rd, r3_ra, r3_rb]
  decide

theorem fsqr (rd : Fin Config.nReg) (ra : Fin Config.nReg) : Statement (.fsqr rd ra) := by
  show encode _ &&& formatMask _ = _
  simp only [encode, encodeReg, or_mask, r2_rd, r2_ra]
  decide

theorem finv (rd : Fin Config.nReg) (ra : Fin Config.nReg) : Statement (.finv rd ra) := by
  show encode _ &&& formatMask _ = _
  simp only [encode, encodeReg, or_mask, r2_rd, r2_ra]
  decide

theorem fisqrt (rd : Fin Config.nReg) (ra : Fin Config.nReg) : Statement (.fisqrt rd ra) := by
  show encode _ &&& formatMask _ = _
  simp only [encode, encodeReg, or_mask, r2_rd, r2_ra]
  decide

theorem fsel (rd : Fin Config.nReg) (ra : Fin Config.nReg) (rb : Fin Config.nReg) : Statement (.fsel rd ra rb) := by
  show encode _ &&& formatMask _ = _
  simp only [encode, encodeReg, or_mask, r3_rd, r3_ra, r3_rb]
  decide

theorem fld (rd : Fin Config.nReg) (slot : Slot) : Statement (.fld rd slot) := by
  show encode _ &&& formatMask _ = _
  simp only [encode, encodeLoad, or_mask, ld_rd, ld_slot]
  decide

theorem fst (slot : Slot) (ra : Fin Config.nReg) : Statement (.fst slot ra) := by
  show encode _ &&& formatMask _ = _
  simp only [encode, encodeStore, or_mask, st_ra, st_slot]
  decide

theorem sadd (rd : Fin Config.nReg) (ra : Fin Config.nReg) (rb : Fin Config.nReg) : Statement (.sadd rd ra rb) := by
  show encode _ &&& formatMask _ = _
  simp only [encode, encodeReg, or_mask, r3_rd, r3_ra, r3_rb]
  decide

theorem smul (rd : Fin Config.nReg) (ra : Fin Config.nReg) (rb : Fin Config.nReg) : Statement (.smul rd ra rb) := by
  show encode _ &&& formatMask _ = _
  simp only [encode, encodeReg, or_mask, r3_rd, r3_ra, r3_rb]
  decide

theorem szero (rd : Fin Config.nReg) : Statement (.szero rd) := by
  show encode _ &&& formatMask _ = _
  simp only [encode, encodeReg, or_mask, r1_rd]
  decide

theorem sone (rd : Fin Config.nReg) : Statement (.sone rd) := by
  show encode _ &&& formatMask _ = _
  simp only [encode, encodeReg, or_mask, r1_rd]
  decide

theorem sld (rd : Fin Config.nReg) (slot : Slot) : Statement (.sld rd slot) := by
  show encode _ &&& formatMask _ = _
  simp only [encode, encodeLoad, or_mask, ld_rd, ld_slot]
  decide

theorem sst (slot : Slot) (ra : Fin Config.nReg) : Statement (.sst slot ra) := by
  show encode _ &&& formatMask _ = _
  simp only [encode, encodeStore, or_mask, st_ra, st_slot]
  decide

theorem pident (rd : Fin Config.nReg) : Statement (.pident rd) := by
  show encode _ &&& formatMask _ = _
  simp only [encode, encodeReg, or_mask, r1_rd]
  decide

theorem padd (rd : Fin Config.nReg) (ra : Fin Config.nReg) (rb : Fin Config.nReg) : Statement (.padd rd ra rb) := by
  show encode _ &&& formatMask _ = _
  simp only [encode, encodeReg, or_mask, r3_rd, r3_ra, r3_rb]
  decide

theorem pdbl (rd : Fin Config.nReg) (ra : Fin Config.nReg) : Statement (.pdbl rd ra) := by
  show encode _ &&& formatMask _ = _
  simp only [encode, encodeReg, or_mask, r2_rd, r2_ra]
  decide

theorem pneg (rd : Fin Config.nReg) (ra : Fin Config.nReg) : Statement (.pneg rd ra) := by
  show encode _ &&& formatMask _ = _
  simp only [encode, encodeReg, or_mask, r2_rd, r2_ra]
  decide

theorem psmul (rd : Fin Config.nReg) (ra : Fin Config.nReg) (rb : Fin Config.nReg) (vt : Bool) : Statement (.psmul rd ra rb vt) := by
  show encode _ &&& formatMask _ = _
  simp only [encode, encodeReg, or_mask, sm_rd, sm_ra, sm_rb, sm_vt]
  decide

theorem peq (ra : Fin Config.nReg) (rb : Fin Config.nReg) : Statement (.peq ra rb) := by
  show encode _ &&& formatMask _ = _
  simp only [encode, encodeReg, or_mask, cmp_ra, cmp_rb]
  decide

theorem pdec (rd : Fin Config.nReg) (slot : Slot) : Statement (.pdec rd slot) := by
  show encode _ &&& formatMask _ = _
  simp only [encode, encodeLoad, or_mask, ld_rd, ld_slot]
  decide

theorem penc (slot : Slot) (ra : Fin Config.nReg) : Statement (.penc slot ra) := by
  show encode _ &&& formatMask _ = _
  simp only [encode, encodeStore, or_mask, st_ra, st_slot]
  decide

theorem pmsm (rd : Fin Config.nReg) (ra : Fin Config.nReg) (rb : Fin Config.nReg) (nsm1 : CountField) (npm1 : CountField) (vt : Bool) : Statement (.pmsm rd ra rb nsm1 npm1 vt) := by
  show encode _ &&& formatMask _ = _
  simp only [encode, encodeReg, or_mask, v_rd, v_ra, v_rb, v_nsm1, v_npm1, v_vt]
  decide

end Sys2Proof.Laws.RowForm
end

