-- ==== Sys2Proof/Laws/ScalarArith.lean ====
section
/-!
SUPPORT. L is prime (`00_scope.md` R8), by the same kind of certificate as p, and scalars as members of ZMod L.
-/

namespace Sys2Proof.Machine

open Sys2Proof.Config

theorem prime_1257559732178653 : Nat.Prime 1257559732178653 :=
  prime_of_witness _ 2 [2, 2, 3, 7, 23, 531581, 1224481] (by norm_num)
    (by simp; norm_num) (by decide) (by decide +kernel)
    (by decide +kernel)

theorem prime_4434155615661930479 : Nat.Prime 4434155615661930479 :=
  prime_of_witness _ 17 [2, 41, 43, 1257559732178653] (by norm_num)
    (by simpa [prime_1257559732178653] using by norm_num) (by decide) (by decide +kernel)
    (by decide +kernel)

theorem prime_172054593956031949258510691 : Nat.Prime 172054593956031949258510691 :=
  prime_of_witness _ 2 [2, 5, 1361, 2851, 4434155615661930479] (by norm_num)
    (by simpa [prime_4434155615661930479] using by norm_num) (by decide) (by decide +kernel)
    (by decide +kernel)

theorem prime_292386187 : Nat.Prime 292386187 :=
  prime_of_witness _ 2 [2, 3, 3, 3, 3, 307, 5879] (by norm_num) (by simp; norm_num) (by decide) (by decide +kernel)
    (by decide +kernel)

theorem prime_213441916511 : Nat.Prime 213441916511 :=
  prime_of_witness _ 13 [2, 5, 73, 292386187] (by norm_num)
    (by simpa [prime_292386187] using by norm_num) (by decide) (by decide +kernel)
    (by decide +kernel)

theorem prime_19757330305831588566944191468367130476339 : Nat.Prime 19757330305831588566944191468367130476339 :=
  prime_of_witness _ 2 [2, 269, 213441916511, 172054593956031949258510691] (by norm_num)
    (by simpa [prime_213441916511, prime_172054593956031949258510691] using by norm_num) (by decide) (by decide +kernel)
    (by decide +kernel)

theorem prime_276602624281642239937218680557139826668747 : Nat.Prime 276602624281642239937218680557139826668747 :=
  prime_of_witness _ 2 [2, 7, 19757330305831588566944191468367130476339] (by norm_num)
    (by simpa [prime_19757330305831588566944191468367130476339] using by norm_num) (by decide) (by decide +kernel)
    (by decide +kernel)

theorem prime_3044861653679985063343 : Nat.Prime 3044861653679985063343 :=
  prime_of_witness _ 5 [2, 3, 11, 30703, 82163, 132667, 137849] (by norm_num)
    (by simp; norm_num) (by decide) (by decide +kernel)
    (by decide +kernel)

theorem prime_198211423230930754013084525763697 : Nat.Prime 198211423230930754013084525763697 :=
  prime_of_witness _ 5 [2, 2, 2, 2, 3, 23, 58964693, 3044861653679985063343] (by norm_num)
    (by simpa [prime_3044861653679985063343] using by norm_num) (by decide) (by decide +kernel)
    (by decide +kernel)

/-- L is prime (`00_scope.md` R8). -/
theorem lOrd_prime : Nat.Prime lOrd :=
  prime_of_witness lOrd 2 [2, 2, 3, 11, 198211423230930754013084525763697, 276602624281642239937218680557139826668747]
    (by decide)
    (by simpa [prime_198211423230930754013084525763697, prime_276602624281642239937218680557139826668747] using by norm_num)
    (by decide) (by decide +kernel) (by decide +kernel)

theorem lOrd_fact : Fact (Nat.Prime lOrd) := ⟨lOrd_prime⟩

/-- A scalar as a member of the field ZMod L. -/
def zlZ (a : Zl) : ZMod lOrd := (a.val : ZMod lOrd)

@[simp] theorem zlZ_toZl (n : Nat) : zlZ (toZl n) = (n : ZMod lOrd) := by simp [zlZ, toZl, ZMod.natCast_mod]

theorem zlZ_injective {a b : Zl} (h : zlZ a = zlZ b) : a = b := by
  unfold zlZ at h
  rw [ZMod.natCast_eq_natCast_iff', Nat.mod_eq_of_lt a.isLt, Nat.mod_eq_of_lt b.isLt] at h
  exact Fin.ext h

@[simp] theorem zlZ_add (a b : Zl) : zlZ (zlAdd a b) = zlZ a + zlZ b := by
  rw [zlAdd, zlZ_toZl, Nat.cast_add]; rfl

@[simp] theorem zlZ_mul (a b : Zl) : zlZ (zlMul a b) = zlZ a * zlZ b := by
  rw [zlMul, zlZ_toZl, Nat.cast_mul]; rfl

end Sys2Proof.Machine
end

