-- ==== Sys2Proof/Laws/Slot.lean ====
section
/-!
SUPPORT. Slots of BUF as integers: what a slot that holds an encoding loads as, what a store leaves in a slot and elsewhere,
and when the three decoders of a slot's integer accept it (`20_memory.md` R51, R52; `40_field.md` R109, R110;
`41_scalar.md` R124; `43_codec.md` R175).
-/

namespace Sys2Proof.Machine

open Sys2Proof.Config

/-! ## Bounds -/

theorem pMod_lt : pMod < 2 ^ 255 := by decide

theorem lOrd_lt : lOrd < 17 * 256 ^ 31 := by decide

theorem pMod_lt_bytes : pMod < 256 ^ 32 := by decide

theorem lOrd_lt_bytes : lOrd < 256 ^ 32 := by decide

theorem pointCode_lt (A : Point) : pointCode A < 256 ^ 32 := by
  have h1 : A.y.val < 2 ^ 255 := lt_trans A.y.isLt pMod_lt
  have h2 : sgn A.x < 2 := Nat.mod_lt _ (by decide)
  unfold pointCode
  omega

/-! ## Slots -/

theorem slotAddr_le (k : Slot) : slotAddr k + 32 ≤ bufSize := by
  have h : k.val < 32 := k.isLt
  unfold slotAddr
  show 32 * k.val + 32 ≤ 1024
  omega

/-- The integer of a slot that holds the encoding of `n` is `n`. -/
theorem slotInt_of_slotHolds {s : State} {k : Slot} {n : Nat} (hn : n < 2 ^ 256) (h : SlotHolds s.buf k n) :
    slotInt s k = n := by
  apply fromLE_eq_of_bytes
  · rw [bufRead, memRead_length]
    exact lt_of_lt_of_le hn (by decide)
  · intro j hj
    rw [bufRead, memRead_length] at hj
    rw [← h j hj]
    simp only [bufRead]
    rw [memRead_getElem]
    rfl

/-- A slot holds the encoding of its own integer. -/
theorem slotHolds_slotInt (s : State) (k : Slot) : SlotHolds s.buf k (slotInt s k) := by
  intro j hj
  have e := leBytes_fromLE (bufRead s.buf k)
  have hl : (bufRead s.buf k).length = 32 := memRead_length s.buf 32 (slotAddr k)
  rw [hl] at e
  have hj' : j < (bufRead s.buf k).length := by rw [hl]; exact hj
  have hb : memByte s.buf (32 * k.val + j) = (bufRead s.buf k)[j] := (memRead_getElem s.buf 32 (slotAddr k) j hj').symm
  rw [hb, slotInt, ← leBytes_getElem_toNat 32 _ j (by rw [leBytes_length]; exact hj)]
  simp only [e]

theorem slotInt_lt (s : State) (k : Slot) : slotInt s k < 2 ^ 256 := by
  have h := fromLE_lt (bufRead s.buf k)
  rw [show (bufRead s.buf k).length = 32 from memRead_length s.buf 32 (slotAddr k)] at h
  exact lt_of_lt_of_le h (by decide)

/-- A store leaves the encoding of its integer in its slot. -/
theorem slotHolds_bufWrite (m : Memory) (k : Slot) (n : Nat) (h : m.wf = true) :
    SlotHolds (bufWrite m k (le32 n)) k n := fun j hj =>
  memByte_memWrite_leBytes m (slotAddr k) 32 n j h (slotAddr_le k) hj

/-- A store leaves every byte outside its slot alone. -/
theorem memByte_bufWrite_ne (m : Memory) (k : Slot) (v : List Byte) (x : Nat) (hv : v.length = 32)
    (h : x < 32 * k.val ∨ 32 * k.val + 32 ≤ x) : memByte (bufWrite m k v) x = memByte m x :=
  memByte_memWrite_ne _ _ _ _ (by rw [hv]; exact h)

/-! ## Decoders -/

theorem fpDecode_of_lt {n : Nat} (v : Fp) (h : v.val = n) : fpDecode n = .ok v := by
  subst h
  exact dif_pos v.isLt

theorem fpDecode_of_le {n : Nat} (h : pMod ≤ n) : fpDecode n = .error .nonCanonicalEncoding :=
  dif_neg (Nat.not_lt.2 h)

theorem zlDecode_of_lt {n : Nat} (v : Zl) (h : v.val = n) : zlDecode n = .ok v := by
  subst h
  exact dif_pos v.isLt

theorem zlDecode_of_le {n : Nat} (h : lOrd ≤ n) : zlDecode n = .error .nonCanonicalEncoding :=
  dif_neg (Nat.not_lt.2 h)

theorem pointDecode_of_le {n : Nat} (h : pMod ≤ n % 2 ^ 255) : pointDecode n = .error .nonCanonicalEncoding := by
  unfold pointDecode
  rw [fpDecode_of_le h]

theorem pointDecode_of_lt {n : Nat} (y : Fp) (h : y.val = n % 2 ^ 255) : pointDecode n = pointFromY y (n / 2 ^ 255) := by
  unfold pointDecode
  rw [fpDecode_of_lt y h]

theorem pointFromY_none {y : Fp} (s : Nat) (h : fpSqrt (xSquared y) = none) :
    pointFromY y s = .error .pointDecompressionFailure := by
  rw [pointFromY, h, pointFromRoot]

theorem pointFromY_some {y x : Fp} (s : Nat) (h : fpSqrt (xSquared y) = some x) :
    pointFromY y s = if x = fpZero ∧ s = 1 then .error .pointDecompressionFailure else .ok ⟨withSign s x, y⟩ := by
  rw [pointFromY, h, pointFromRoot]

/-- Steps 2 to 4 of `43_codec.md` R175 give a point or PointDecompressionFailure. -/
theorem pointFromY_cases (y : Fp) (s : Nat) :
    (∃ A, pointFromY y s = .ok A) ∨ pointFromY y s = .error .pointDecompressionFailure := by
  cases h : fpSqrt (xSquared y) with
  | none => exact .inr (pointFromY_none s h)
  | some x =>
    rw [pointFromY_some s h]
    split
    · exact .inr rfl
    · exact .inl ⟨_, rfl⟩

end Sys2Proof.Machine
end

