-- ==== Sys2Proof/Tests/Slice0.lean ====
section
/-!
SUPPORT. The model's own tests. Expected results are those of `95_test_vectors.md` and `96_test_vectors_derived.md`, named by
their vector in each docstring, or of the worked examples in the rules. The witnesses at the end show, for every statement
with hypotheses, a concrete input that meets them.
-/

namespace Sys2Proof.Tests

open Sys2Proof.Machine Sys2Proof.Config

set_option Elab.async false

/-! ## Well-formedness -/

/-- R76: a PMSM run that passes register 15 is refused, on the scalar side and on the point side; a run that ends at 15 is
not. -/
theorem test_wellFormed_scalar_run : (Instr.pmsm 0 15 0 1 0 false).wellFormed = false := by decide

theorem test_wellFormed_point_run : (Instr.pmsm 0 0 15 0 1 false).wellFormed = false := by decide

theorem test_wellFormed_run_to_end : (Instr.pmsm 1 15 15 0 0 false).wellFormed = true := by decide

/-! ## Decoding: words of `96_test_vectors_derived.md` section 2.1 -/

theorem test_decode_field :
    decode 0x00021310#32 = .ok (.fadd 3 1 2) ∧ decode 0x000F0F11#32 = .ok (.fsub 15 0 15) ∧
    decode 0x00001212#32 = .ok (.fneg 2 1) ∧ decode 0x00021313#32 = .ok (.fmul 3 1 2) ∧
    decode 0x00007714#32 = .ok (.fsqr 7 7) ∧ decode 0x00001215#32 = .ok (.finv 2 1) ∧
    decode 0x00003416#32 = .ok (.fisqrt 4 3) ∧ decode 0x00031417#32 = .ok (.fsel 4 1 3) ∧
    decode 0x00050118#32 = .ok (.fld 1 5) ∧ decode 0x001FF019#32 = .ok (.fst 31 15) := by decide

theorem test_decode_scalar :
    decode 0x00010220#32 = .ok (.sadd 2 0 1) ∧ decode 0x00010221#32 = .ok (.smul 2 0 1) ∧
    decode 0x00000422#32 = .ok (.szero 4) ∧ decode 0x00000523#32 = .ok (.sone 5) ∧
    decode 0x00010128#32 = .ok (.sld 1 1) ∧ decode 0x00021029#32 = .ok (.sst 2 1) := by decide

theorem test_decode_point :
    decode 0x00000030#32 = .ok (.pident 0) ∧ decode 0x00021331#32 = .ok (.padd 3 1 2) ∧
    decode 0x00001232#32 = .ok (.pdbl 2 1) ∧ decode 0x00001233#32 = .ok (.pneg 2 1) ∧
    decode 0x00011234#32 = .ok (.psmul 2 1 1 false) ∧ decode 0x10001234#32 = .ok (.psmul 2 1 0 true) ∧
    decode 0x00021035#32 = .ok (.peq 1 2) := by decide

theorem test_decode_codec_msm :
    decode 0x00100F38#32 = .ok (.pdec 15 16) ∧ decode 0x00041039#32 = .ok (.penc 4 1) ∧
    decode 0x07700840#32 = .ok (.pmsm 8 0 0 7 7 false) ∧ decode 0x1FF00040#32 = .ok (.pmsm 0 0 0 15 15 true) ∧
    decode 0x000FF140#32 = .ok (.pmsm 1 15 15 0 0 false) ∧ decode 0x0101F040#32 = .ok (.pmsm 0 15 1 0 1 false) := by decide

theorem test_decode_unknown_opcode :
    decode 0x00000000#32 = .error .unknownOpcode ∧ decode 0xFFFFFFFF#32 = .error .unknownOpcode ∧
    decode 0x00000001#32 = .error .unknownOpcode ∧ decode 0x0000001A#32 = .error .unknownOpcode ∧
    decode 0x00000024#32 = .error .unknownOpcode ∧ decode 0x00000036#32 = .error .unknownOpcode ∧
    decode 0x00000041#32 = .error .unknownOpcode ∧ decode 0x000000FF#32 = .error .unknownOpcode := by decide

theorem test_decode_unused_bit_register_forms :
    decode 0x00100010#32 = .error .unusedBitSet ∧ decode 0x01000010#32 = .error .unusedBitSet ∧
    decode 0x10000010#32 = .error .unusedBitSet ∧ decode 0x20000010#32 = .error .unusedBitSet ∧
    decode 0x00010012#32 = .error .unusedBitSet ∧ decode 0x00001122#32 = .error .unusedBitSet ∧
    decode 0x00010030#32 = .error .unusedBitSet ∧ decode 0x00000135#32 = .error .unusedBitSet := by decide

theorem test_decode_unused_bit_other_forms :
    decode 0x10000031#32 = .error .unusedBitSet ∧ decode 0x20001234#32 = .error .unusedBitSet ∧
    decode 0x00200018#32 = .error .unusedBitSet ∧ decode 0x00001018#32 = .error .unusedBitSet ∧
    decode 0x00200019#32 = .error .unusedBitSet ∧ decode 0x00000119#32 = .error .unusedBitSet ∧
    decode 0x80000040#32 = .error .unusedBitSet := by decide

theorem test_decode_run_past_end :
    decode 0x0010F040#32 = .error .runPastEnd ∧ decode 0x010F0040#32 = .error .runPastEnd ∧
    decode 0x0F0F0040#32 = .error .runPastEnd := by decide

/-! ## Small states -/

/-- The outcome is a next state of which `p` holds. -/
def nextWith (o : Outcome) (p : State → Bool) : Bool :=
  match o with
  | .next t => p t
  | .fault _ => false
  | .refused _ => false

theorem nextWith_iff (o : Outcome) (p : State → Bool) : nextWith o p = true ↔ ∃ t, o = .next t ∧ p t = true := by
  cases o with
  | next t => exact ⟨fun h => ⟨t, rfl, h⟩, fun ⟨_, he, h⟩ => Host.Outcome.next.inj he ▸ h⟩
  | fault r => cases r
  | refused r => exact ⟨fun h => Bool.noConfusion h, fun ⟨_, he, _⟩ => by cases he⟩

/-- F1 = a, F2 = b, FLAG = f. -/
def fState (a b : Nat) (f : Bool) : State := ((State.reset.setF 1 (some (toFp a))).setF 2 (some (toFp b))).setFlag f

/-- S0 = a, S1 = b. -/
def sState (a b : Nat) : State := (State.reset.setS 0 (some (toZl a))).setS 1 (some (toZl b))

/-- S1 = k, P1 = A, P2 = B, FLAG = f. -/
def pState (k : Nat) (A B : Point) (f : Bool) : State :=
  (((State.reset.setS 1 (some (toZl k))).setP 1 (some A)).setP 2 (some B)).setFlag f

/-- Slot 0 = LE32(n), FLAG = 1. -/
def slotState (n : Nat) : State := (State.reset.setSlot 0 (le32 n)).setFlag true

/-- Whether a next state has code `c`, FLAG `f` and the value `v` in field register `r`. -/
def seesF (o : Outcome) (c : ResultCode) (f : Bool) (r : FReg) (v : Option Nat) : Bool :=
  nextWith o fun t => decide (t.err = c) && decide (t.flag = f) && decide ((t.getF r).map Fin.val = v)

def seesS (o : Outcome) (c : ResultCode) (r : SReg) (v : Option Nat) : Bool :=
  nextWith o fun t => decide (t.err = c) && decide ((t.getS r).map Fin.val = v)

/-- Whether a next state has code `c` and, in point register `r`, the point whose encoding's integer is `v`. -/
def seesP (o : Outcome) (c : ResultCode) (r : PReg) (v : Option Nat) : Bool :=
  nextWith o fun t => decide (t.err = c) && decide ((t.getP r).map pointCode = v)

/-- Whether a next state has code `c` and the integer `v` in slot `k`. -/
def seesSlot (o : Outcome) (c : ResultCode) (k : Slot) (v : Nat) : Bool :=
  nextWith o fun t => decide (t.err = c) && decide (slotInt t k = v)

/-! Named values of `95_test_vectors.md` section 0. -/

def m1 : Nat := 0x7fffffffffffffffffffffffffffffffffffffffffffffffffffffffffffffec

def m2 : Nat := 0x7fffffffffffffffffffffffffffffffffffffffffffffffffffffffffffffeb

def inv2 : Nat := 0x3ffffffffffffffffffffffffffffffffffffffffffffffffffffffffffffff7

def h4 : Nat := 0x3ffffffffffffffffffffffffffffffffffffffffffffffffffffffffffffff6

def dd : Nat := 0x7d6f8d574d4c1f28666b5422418f201bd37e5ec732a1caf01d83f63e6ba03e78

def d2 : Nat := 0x2406d9dc56dffce7198e80f2eef3d13000e0149a8283b156ebd69b9426b2f159

def nd : Nat := 0x2dfc9311d490018c7338bf8688861767ff8ff5b2bebe27548a14b235eca6874a

def nI : Nat := 0x547cdb7fb03e20f4d4b2ff66c2042858d0bce7f952d01b873b11e4d8b5f15f3d

def l1 : Nat := 0x1000000000000000000000000000000014def9dea2f79cd65812631a5cf5d3ec

def l2 : Nat := 0x1000000000000000000000000000000014def9dea2f79cd65812631a5cf5d3eb

def sx : Nat := 0x0123456789abcdef0123456789abcdef0123456789abcdef0123456789abcdef

def sy : Nat := 0x0fffffffffffffffffffffffffffffffffffffffffffffffffffffffffffffff

def T1 : Point :=
  ⟨toFp 0x216936d3cd6e53fec0a4e231fdd6dc5c692cc7609525a7b2c9562d608f25d51a,
   toFp 0x6666666666666666666666666666666666666666666666666666666666666658⟩

def Q2 : Point := ⟨toFp 0, toFp m1⟩

def Q4 : Point := ⟨toFp sqrtM1, toFp 0⟩

def nQ4 : Point := ⟨toFp nI, toFp 0⟩

/-- The integers of the encodings of T1, −T1, [2]T1, [5]T1 and T1 ⊕ Q4. -/
def codeT1 : Nat := 0x6666666666666666666666666666666666666666666666666666666666666658

def codeNegT1 : Nat := 0xe666666666666666666666666666666666666666666666666666666666666658

def code2T1 : Nat := 0x2260cdf3092329c21da25ee8c9a21f5697390f51643851560e5f46ae6af8a3c9

def code5T1 : Nat := 0xdf4825b298feae6fe02c6e148992466631282eca89430b5d10d21f83d676c8ed

def codeT1Q4 : Nat := 0xea6597b61bb3c380f9e4c2a8f03b12a4a2eb3745bdac20b63381207f0acc5252

/-! ## The field family -/

/-- V-F1. -/
theorem test_fadd_reduces : seesF (exec (.fadd 2 1 1) (fState m1 0 false)) .ok false 2 (some m2) = true := by decide +kernel

/-- V-F4. -/
theorem test_fadd_once : seesF (exec (.fadd 3 1 1) (fState dCurve 0 true)) .ok true 3 (some d2) = true := by decide +kernel

/-- V-F6. -/
theorem test_fsub_borrows : seesF (exec (.fsub 3 1 2) (fState 0 1 false)) .ok false 3 (some m1) = true := by decide +kernel

/-- V-F8. -/
theorem test_fsub_order : seesF (exec (.fsub 3 1 2) (fState 1 m1 false)) .ok false 3 (some 2) = true := by decide +kernel

/-- V-F9. -/
theorem test_fneg_zero : seesF (exec (.fneg 2 1) (fState 0 5 false)) .ok false 2 (some 0) = true := by decide +kernel

/-- V-F10b. -/
theorem test_fneg : seesF (exec (.fneg 2 1) (fState dCurve 5 false)) .ok false 2 (some nd) = true := by decide +kernel

/-- V-F11. -/
theorem test_fmul : seesF (exec (.fmul 3 1 2) (fState 2 m1 false)) .ok false 3 (some m2) = true := by decide +kernel

/-- V-F14. -/
theorem test_fmul_wide : seesF (exec (.fmul 3 1 1) (fState dCurve 0 false)) .ok false 3 (some dd) = true := by decide +kernel

/-- V-F16. -/
theorem test_fsqr_root : seesF (exec (.fsqr 2 1) (fState sqrtM1 5 false)) .ok false 2 (some m1) = true := by decide +kernel

/-- V-F17. -/
theorem test_fsqr_in_place : seesF (exec (.fsqr 1 1) (fState dCurve 5 false)) .ok false 1 (some dd) = true := by decide +kernel

/-- V-F18. -/
theorem test_finv : seesF (exec (.finv 2 1) (fState 2 5 false)) .ok false 2 (some inv2) = true := by decide +kernel

/-- V-F19. -/
theorem test_finv_zero : seesF (exec (.finv 2 1) (fState 0 5 true)) .undefinedInverse true 2 none = true := by decide +kernel

/-- V-F22b. -/
theorem test_fisqrt_non_square : seesF (exec (.fisqrt 2 1) (fState 2 5 true)) .ok false 2 (some 0) = true := by decide +kernel

/-- V-F21d: the candidate fails and SQRT_M1 corrects it. -/
theorem test_fisqrt_minus_one : seesF (exec (.fisqrt 2 1) (fState m1 5 false)) .ok true 2 (some sqrtM1) = true := by
  decide +kernel

/-- V-F23b. -/
theorem test_fsel_second : seesF (exec (.fsel 3 1 2) (fState 5 7 true)) .ok true 3 (some 7) = true := by decide +kernel

/-- V-F23e: the source that is not selected is NONE. -/
theorem test_fsel_none : seesF (exec (.fsel 3 1 4) (fState 5 7 false)) .invalidOperand false 3 none = true := by
  decide +kernel

/-- V-F24c. -/
theorem test_fld_largest : seesF (exec (.fld 1 0) (slotState m1)) .ok true 1 (some m1) = true := by decide +kernel

/-- V-F24d, V-X5. -/
theorem test_fld_p : seesF (exec (.fld 1 0) (slotState pMod)) .nonCanonicalEncoding true 1 none = true := by decide +kernel

/-- V-F25. -/
theorem test_fst : seesSlot (exec (.fst 3 1) (fState m1 0 false)) .ok 3 m1 = true := by decide +kernel

/-- V-F25d, for slot 0. -/
theorem test_fst_none : seesSlot (exec (.fst 0 9) (slotState m2)) .invalidOperand 0 m2 = true := by decide +kernel

/-! ## The scalar family -/

/-- V-S4. -/
theorem test_sadd_reduces : seesS (exec (.sadd 2 0 0) (sState l1 0)) .ok 2 (some l2) = true := by decide +kernel

/-- V-S9c. -/
theorem test_sadd_none : seesS (exec (.sadd 2 0 3) (sState 1 0)) .invalidOperand 2 none = true := by decide +kernel

/-- V-S7. -/
theorem test_smul_wide : seesS (exec (.smul 2 0 1) (sState sx sy)) .ok 2
    (some 0x00d79cb7c2295f4be0ae57c05beaaab66d743ae5f8bb74c76afd6f1c9caa6fb6) = true := by decide +kernel

/-- V-S5. -/
theorem test_smul_minus_one : seesS (exec (.smul 2 0 0) (sState l1 0)) .ok 2 (some 1) = true := by decide +kernel

/-- V-S9. -/
theorem test_szero : seesS (exec (.szero 4) State.reset) .ok 4 (some 0) = true := by decide +kernel

/-- V-S9b. -/
theorem test_sone : seesS (exec (.sone 0) (sState sx 0)) .ok 0 (some 1) = true := by decide +kernel

/-- V-S10b. -/
theorem test_sld_largest : seesS (exec (.sld 1 0) (slotState l1)) .ok 1 (some l1) = true := by decide +kernel

/-- V-S10c. -/
theorem test_sld_L : seesS (exec (.sld 1 0) (slotState lOrd)) .nonCanonicalEncoding 1 none = true := by decide +kernel

/-- V-S11, with S0 in place of S1: byte 31 is 0x10. -/
theorem test_sst : nextWith (exec (.sst 2 0) (sState l1 0)) (fun t =>
    decide (slotInt t 2 = l1) && decide (memByte t.buf 95 = 0x10#8)) = true := by decide +kernel

/-! ## The point family and the codec -/

/-- V-P1. -/
theorem test_pident : seesP (exec (.pident 0) State.reset) .ok 0 (some 1) = true := by decide +kernel

/-- V-P5d. -/
theorem test_padd_low_order : seesP (exec (.padd 3 1 2) (pState 0 Q4 Q4 false)) .ok 3 (some m1) = true := by decide +kernel

/-- V-P5e. -/
theorem test_padd_mixed : seesP (exec (.padd 3 1 2) (pState 0 T1 Q4 false)) .ok 3 (some codeT1Q4) = true := by decide +kernel

/-- V-P6. -/
theorem test_pdbl : seesP (exec (.pdbl 2 1) (pState 0 T1 Q4 false)) .ok 2 (some code2T1) = true := by decide +kernel

/-- V-P7. -/
theorem test_pneg : seesP (exec (.pneg 2 1) (pState 0 T1 Q4 false)) .ok 2 (some codeNegT1) = true := by decide +kernel

/-- V-P8d. -/
theorem test_psmul : seesP (exec (.psmul 2 1 1 false) (pState 5 T1 Q4 false)) .ok 2 (some code5T1) = true := by decide +kernel

/-- V-P8b. -/
theorem test_psmul_zero : seesP (exec (.psmul 2 1 1 true) (pState 0 T1 Q4 false)) .ok 2 (some 1) = true := by decide +kernel

/-- V-P10b, with nQ4: P and −P differ. -/
theorem test_peq_differ : nextWith (exec (.peq 1 2) (pState 0 Q4 nQ4 true)) (fun t =>
    decide (t.err = .ok) && !t.flag && !t.sticky) = true := by decide +kernel

/-- V-P10c. -/
theorem test_peq_same : nextWith (exec (.peq 1 2) (pState 0 Q2 Q2 false)) (fun t => t.flag) = true := by decide +kernel

/-- V-C9, V-C9b: the sign bit chooses the root. -/
theorem test_pdec : seesP (exec (.pdec 1 0) (slotState codeNegT1)) .ok 1 (some codeNegT1) = true := by decide +kernel

/-- V-C4, `90_conflicts.md` C3: x = 0 with sign 1. -/
theorem test_pdec_negative_zero :
    seesP (exec (.pdec 1 0) (slotState (1 + 2 ^ 255))) .pointDecompressionFailure 1 none = true := by decide +kernel

/-- V-C11f. -/
theorem test_penc : seesSlot (exec (.penc 4 1) (pState 0 (pointNeg T1) Q4 false)) .ok 4 codeNegT1 = true := by decide +kernel

/-- V-C11d. -/
theorem test_penc_sign : seesSlot (exec (.penc 4 1) (pState 0 nQ4 Q4 false)) .ok 4 (2 ^ 255) = true := by decide +kernel

/-! ## PMSM -/

/-- S0 = 1, S1 = 1, P0 = T1, P1 = T1. -/
def msmState : State :=
  (((State.reset.setS 0 (some (toZl 1))).setS 1 (some (toZl 1))).setP 0 (some T1)).setP 1 (some T1)

/-- As V-M5, with T1 twice: the destination lies inside the point run. -/
theorem test_pmsm_in_place : seesP (exec (.pmsm 1 0 0 1 1 true) msmState) .ok 1 (some code2T1) = true := by decide +kernel

/-- V-M7b: the counts are compared before any register is read. -/
theorem test_pmsm_length : seesP (exec (.pmsm 0 0 0 0 5 false) msmState) .lengthMismatch 0 none = true := by decide +kernel

/-! ## Errors, the host window and steps -/

/-- V-X1. -/
theorem test_none_source : nextWith (exec (.fadd 2 0 1) State.reset) (fun t =>
    decide (statusWord t = 0x00000181#32)) = true := by decide +kernel

/-- V-X2: an illegal word invalidates nothing. -/
theorem test_illegal_word : nextWith (step ((fState 5 7 true).withFetchWord 32 0x00100310)) (fun t =>
    decide ((t.getF 1).map Fin.val = some 5) && t.flag && decide (statusWord t = 0x00000180#32)) = true := by decide +kernel

/-- V-M9. -/
theorem test_illegal_run : nextWith (step (msmState.withFetchWord 32 0x0010F040)) (fun t =>
    decide (t.err = .illegalCommand) && decide ((t.getP 0).map pointCode = some codeT1)) = true := by decide +kernel

/-- V-H9 and V-H5: a host word is little-endian in both directions. -/
theorem test_buf_word : nextWith (step { State.reset with pending := [.write 0x460 4 0xFFFFFFEC#32] }) (fun t =>
    decide (memByte t.buf 96 = 0xEC#8) && decide (hostReadValue 0x460 2 t = 0x0000FFEC#32) &&
      decide (hostReadValue 0x460 4 t = 0xFFFFFFEC#32) && t.buf.wf) = true := by decide +kernel

/-- V-H11, V-H12: only bit 0 of a write to FLAG counts. -/
theorem test_flag_write : nextWith (step { State.reset with pending := [.write 0x008 4 0xFFFFFFFF#32] }) (fun t =>
    decide (hostReadValue 0x008 4 t = 1#32)) = true := by decide +kernel

/-- V-H17: a reset clears STICKY and BUF. -/
theorem test_reset_write : nextWith (step { slotState m1 with sticky := true, pending := [.write 0x00C 4 1#32] }) (fun t =>
    decide (t = State.reset)) = true := by decide +kernel

/-- V-H21. -/
theorem test_reserved : ∀ e ∈ [HostEvent.read 0x010 4, .read 0x3FC 4, .write 0x800 4 0#32, .read 0x401 2, .read 0x004 1],
    step { State.reset with pending := [e] } = .refused (.reservedAccess
      (match e with | .read o _ => o | .write o _ _ => o | .hardwareReset => 0)
      (match e with | .read _ n => n | .write _ n _ => n | .hardwareReset => 0)) := by
  intro e he
  fin_cases he <;> rfl

/-! ## Witnesses: every statement with hypotheses has inputs that meet them, at the edges of each clause -/

theorem next_of (o : Outcome) (p : State → Prop) [DecidablePred p] (h : nextWith o (fun t => decide (p t)) = true) :
    ∃ t, o = .next t ∧ p t := by
  obtain ⟨t, h1, h2⟩ := (nextWith_iff _ _).1 h
  exact ⟨t, h1, of_decide_eq_true h2⟩

/-- A state that meets the invariant, with a point, a value in BUF and the host's accesses `es` to come. -/
def hostState (es : List HostEvent) : State :=
  { (State.reset.setP 1 (some T1)).setSlot 0 (le32 m1) with err := .invalidOperand, sticky := true, pending := es }

theorem T1_onCurve : onCurve T1 = true := by decide +kernel

theorem hostState_inv (es : List HostEvent) : (hostState es).Inv where
  bufWf := bufWrite_wf [] 0 (le32 m1) (le32_length m1) rfl
  points := by
    intro r A h
    have e : (hostState es).getP r = (State.reset.setP 1 (some T1)).getP r := rfl
    rw [e, State.getP_setP, State.getP_reset] at h
    split at h
    · exact Option.some.inj h ▸ T1_onCurve
    · cases h
  status := fun _ => rfl

theorem slotState_holds (n : Nat) : SlotHolds (slotState n).buf 0 n := by
  unfold slotState
  rw [State.buf_setFlag, State.buf_setSlot]
  exact slotHolds_bufWrite _ 0 n rfl

/-! Encoding. -/

theorem witness_DecodeOfEncode :
    (Instr.pmsm 0 0 0 15 15 true).wellFormed = true ∧ (Instr.pmsm 1 15 15 0 0 false).wellFormed = true := by decide

theorem witness_DecodedWordIsTheEncoding :
    decode 0x1FF00040#32 = .ok (.pmsm 0 0 0 15 15 true) ∧ decode 0x000FF140#32 = .ok (.pmsm 1 15 15 0 0 false) := by decide

/-- A word whose masked bits are no row's `match` is no command's word. -/
theorem not_encode (w : Word)
    (h : ∀ f ∈ [(Format.r3, 0x10#32), (.r3, 0x11#32), (.r2, 0x12#32), (.r3, 0x13#32), (.r2, 0x14#32), (.r2, 0x15#32),
      (.r2, 0x16#32), (.r3, 0x17#32), (.ld, 0x18#32), (.st, 0x19#32), (.r3, 0x20#32), (.r3, 0x21#32), (.r1, 0x22#32),
      (.r1, 0x23#32), (.ld, 0x28#32), (.st, 0x29#32), (.r1, 0x30#32), (.r3, 0x31#32), (.r2, 0x32#32), (.r2, 0x33#32),
      (.sm, 0x34#32), (.cmp, 0x35#32), (.ld, 0x38#32), (.st, 0x39#32), (.v, 0x40#32)],
      w &&& formatMask f.1 ≠ f.2) (i : Instr) : encode i ≠ w := by
  rintro rfl
  cases i
  case fadd rd ra rb => exact h (.r3, 0x10#32) (by decide) (Laws.RowForm.fadd rd ra rb)
  case fsub rd ra rb => exact h (.r3, 0x11#32) (by decide) (Laws.RowForm.fsub rd ra rb)
  case fneg rd ra => exact h (.r2, 0x12#32) (by decide) (Laws.RowForm.fneg rd ra)
  case fmul rd ra rb => exact h (.r3, 0x13#32) (by decide) (Laws.RowForm.fmul rd ra rb)
  case fsqr rd ra => exact h (.r2, 0x14#32) (by decide) (Laws.RowForm.fsqr rd ra)
  case finv rd ra => exact h (.r2, 0x15#32) (by decide) (Laws.RowForm.finv rd ra)
  case fisqrt rd ra => exact h (.r2, 0x16#32) (by decide) (Laws.RowForm.fisqrt rd ra)
  case fsel rd ra rb => exact h (.r3, 0x17#32) (by decide) (Laws.RowForm.fsel rd ra rb)
  case fld rd k => exact h (.ld, 0x18#32) (by decide) (Laws.RowForm.fld rd k)
  case fst k ra => exact h (.st, 0x19#32) (by decide) (Laws.RowForm.fst k ra)
  case sadd rd ra rb => exact h (.r3, 0x20#32) (by decide) (Laws.RowForm.sadd rd ra rb)
  case smul rd ra rb => exact h (.r3, 0x21#32) (by decide) (Laws.RowForm.smul rd ra rb)
  case szero rd => exact h (.r1, 0x22#32) (by decide) (Laws.RowForm.szero rd)
  case sone rd => exact h (.r1, 0x23#32) (by decide) (Laws.RowForm.sone rd)
  case sld rd k => exact h (.ld, 0x28#32) (by decide) (Laws.RowForm.sld rd k)
  case sst k ra => exact h (.st, 0x29#32) (by decide) (Laws.RowForm.sst k ra)
  case pident rd => exact h (.r1, 0x30#32) (by decide) (Laws.RowForm.pident rd)
  case padd rd ra rb => exact h (.r3, 0x31#32) (by decide) (Laws.RowForm.padd rd ra rb)
  case pdbl rd ra => exact h (.r2, 0x32#32) (by decide) (Laws.RowForm.pdbl rd ra)
  case pneg rd ra => exact h (.r2, 0x33#32) (by decide) (Laws.RowForm.pneg rd ra)
  case psmul rd ra rb vt => exact h (.sm, 0x34#32) (by decide) (Laws.RowForm.psmul rd ra rb vt)
  case peq ra rb => exact h (.cmp, 0x35#32) (by decide) (Laws.RowForm.peq ra rb)
  case pdec rd k => exact h (.ld, 0x38#32) (by decide) (Laws.RowForm.pdec rd k)
  case penc k ra => exact h (.st, 0x39#32) (by decide) (Laws.RowForm.penc k ra)
  case pmsm rd ra rb n m vt => exact h (.v, 0x40#32) (by decide) (Laws.RowForm.pmsm rd ra rb n m vt)

theorem witness_IllegalWordChangesOnlyStatus :
    (∀ i : Instr, i.wellFormed = true → encode i ≠ 0x00000000#32) ∧
    (∀ i : Instr, i.wellFormed = true → encode i ≠ 0x00100010#32) ∧
    (hostState [.write 0x000 4 0x00100010#32, .read 0x004 4]).pending =
      .write 0x000 4 0x00100010#32 :: [.read 0x004 4] :=
  ⟨fun i _ => not_encode _ (by decide) i, fun i _ => not_encode _ (by decide) i, rfl⟩

/-! Steps, reset and the host window. -/

theorem witness_StepRunsTheDecodedCommand :
    (hostState [.write 0x000 4 0x00050118#32, .read 0x004 4]).pending =
      .write 0x000 4 0x00050118#32 :: [.read 0x004 4] ∧ decode 0x00050118#32 = .ok (.fld 1 5) := by decide

theorem witness_NoAccessNoChange : State.reset.pending = [] := rfl

theorem witness_ControlRegisterWrites :
    (hostState [.write 0x008 4 1#32]).pending = .write 0x008 4 1#32 :: [] ∧
    (hostState [.write 0x004 4 1#32]).pending = .write 0x004 4 1#32 :: [] ∧
    (hostState [.write 0x00C 4 3#32]).pending = .write 0x00C 4 3#32 :: [] ∧ (3#32).getLsbD 0 = true ∧
    (hostState [.write 0x00C 4 2#32]).pending = .write 0x00C 4 2#32 :: [] ∧ (2#32).getLsbD 0 = false := by decide

theorem witness_HardwareResetIsReset : (hostState [.hardwareReset]).pending = .hardwareReset :: [] := rfl

theorem witness_ControlRegisterReads :
    (hostState [.read 0x004 4]).pending = .read 0x004 4 :: [] ∧ (hostState [.read 0x008 4]).pending = .read 0x008 4 :: [] ∧
    (hostState [.read 0x000 4]).pending = .read 0x000 4 :: [] ∧
    (hostState [.read 0x00C 4]).pending = .read 0x00C 4 :: [] := by decide

theorem witness_BufReadIsLittleEndian :
    ∀ a ∈ [(0x400, 1), (0x400, 4), (0x7FC, 4), (0x7FE, 2), (0x7FF, 1)],
      (a.2 = 1 ∨ a.2 = 2 ∨ a.2 = 4) ∧ a.1 % a.2 = 0 ∧ 0x400 ≤ a.1 ∧ a.1 + a.2 ≤ 0x800 ∧
        (hostState [.read a.1 a.2]).pending = .read a.1 a.2 :: [] := by decide

theorem witness_BufWriteChangesExactlyItsBytes :
    ∀ a ∈ [(0x400, 1), (0x400, 4), (0x7FC, 4), (0x7FE, 2), (0x7FF, 1)],
      (hostState [.write a.1 a.2 7#32]).buf.wf = true ∧ (a.2 = 1 ∨ a.2 = 2 ∨ a.2 = 4) ∧ a.1 % a.2 = 0 ∧ 0x400 ≤ a.1 ∧
        a.1 + a.2 ≤ 0x800 ∧ (hostState [.write a.1 a.2 7#32]).pending = .write a.1 a.2 7#32 :: [] := by
  intro a ha
  refine ⟨(hostState_inv _).bufWf, ?_⟩
  revert a
  decide

/-- The clauses of ReservedAccessIsRefused, on each side of their edges. -/
def accessAllowed (off width : Nat) : Prop :=
  ((width = 1 ∨ width = 2 ∨ width = 4) ∧ off % width = 0 ∧ 0x400 ≤ off ∧ off + width ≤ 0x800) ∨
    (width = 4 ∧ (off = 0x000 ∨ off = 0x004 ∨ off = 0x008 ∨ off = 0x00C))

theorem witness_ReservedAccessIsRefused :
    accessAllowed 0x400 4 ∧ accessAllowed 0x7FF 1 ∧ accessAllowed 0x000 4 ∧ accessAllowed 0x00C 4 ∧
    ¬ accessAllowed 0x010 4 ∧ ¬ accessAllowed 0x3FC 4 ∧ ¬ accessAllowed 0x800 1 ∧ ¬ accessAllowed 0x401 2 ∧
    ¬ accessAllowed 0x004 1 ∧ ¬ accessAllowed 0x400 8 ∧ ¬ accessAllowed 0x400 0 ∧
    (hostState [.read 0x401 2]).pending = .read 0x401 2 :: [] ∧
    (hostState [.write 0x401 2 0#32]).pending = .write 0x401 2 0#32 :: [] := by
  unfold accessAllowed
  refine ⟨?_, ?_, ?_, ?_, ?_, ?_, ?_, ?_, ?_, ?_, ?_, ?_, ?_⟩ <;> decide

theorem witness_PermittedRunsNeverStop :
    ∀ e ∈ (hostState [.write 0x400 4 7#32, .write 0x000 4 0#32, .hardwareReset, .read 0x7FF 1]).pending,
      e.permitted = true := by decide

theorem witness_OnlyResetClearsSticky :
    (hostState [.write 0x00C 4 2#32]).pending = .write 0x00C 4 2#32 :: [] ∧
    (HostEvent.write 0x00C 4 2#32).resets = false ∧ (hostState [.write 0x00C 4 2#32]).sticky = true ∧
    ∃ t, step (hostState [.write 0x00C 4 2#32]) = .next t :=
  ⟨rfl, by decide, rfl, _, rfl⟩

/-! The field family. -/

theorem fState_one (a b : Nat) (f : Bool) : (fState a b f).getF 1 = some (toFp a) := by
  simp [fState, State.getF_setF]

theorem fState_two (a b : Nat) (f : Bool) : (fState a b f).getF 2 = some (toFp b) := by
  simp [fState]

theorem fState_wf (a b : Nat) (f : Bool) : (fState a b f).buf.wf = true := rfl

theorem witness_FaddResult :
    (fState m1 m1 true).getF 1 = some (toFp m1) ∧ (fState m1 m1 true).getF 2 = some (toFp m1) :=
  ⟨fState_one .., fState_two ..⟩

theorem witness_FsubResult :
    (fState 0 m1 true).getF 1 = some (toFp 0) ∧ (fState 0 m1 true).getF 2 = some (toFp m1) :=
  ⟨fState_one .., fState_two ..⟩

theorem witness_FnegResult : (fState 0 0 true).getF 1 = some (toFp 0) ∧ (fState m1 0 true).getF 1 = some (toFp m1) ∧
    (toFp m1).val ≠ 0 := ⟨fState_one .., fState_one .., by decide⟩

theorem witness_FmulResult :
    (fState m1 0 true).getF 1 = some (toFp m1) ∧ (fState m1 0 true).getF 2 = some (toFp 0) :=
  ⟨fState_one .., fState_two ..⟩

theorem witness_FsqrResult : (fState m1 0 true).getF 1 = some (toFp m1) := fState_one ..

theorem witness_FinvResult : (fState m1 0 true).getF 1 = some (toFp m1) ∧ (toFp m1).val ≠ 0 ∧
    (fState 0 0 true).getF 1 = some (toFp 0) ∧ (toFp 0).val = 0 := ⟨fState_one .., by decide, fState_one .., rfl⟩

theorem witness_FisqrtResult :
    ((fState 4 0 true).getF 1 = some (toFp 4) ∧ (toFp 4).val ≠ 0 ∧ ∃ b : Fp, b.val * b.val % pMod = (toFp 4).val) ∧
    ((fState 0 0 true).getF 1 = some (toFp 0) ∧ (toFp 0).val = 0) ∧
    ((fState dCurve 0 true).getF 1 = some (toFp dCurve) ∧ ¬ ∃ b : Fp, b.val * b.val % pMod = (toFp dCurve).val) := by
  refine ⟨⟨fState_one .., by decide, toFp 2, by decide⟩, ⟨fState_one .., rfl⟩, fState_one .., ?_⟩
  rintro ⟨b, hb⟩
  refine dCurve_not_square ⟨fpZ b, ?_⟩
  have h : fpMul b b = toFp dCurve := Fin.ext hb
  have := congrArg fpZ h
  rw [fpZ_mul, fpZ_toFp] at this
  exact this.symm

theorem witness_FselResult :
    ((fState 5 7 true).getF 1 = some (toFp 5) ∧ (fState 5 7 true).getF 2 = some (toFp 7)) ∧
    (fState 5 7 false).getF 3 = none := ⟨⟨fState_one .., fState_two ..⟩, by simp [fState, State.getF_setF]⟩

theorem witness_FldResult :
    (m1 < 2 ^ 256 ∧ SlotHolds (slotState m1).buf 0 m1 ∧ (toFp m1).val = m1) ∧
    (pMod < 2 ^ 256 ∧ SlotHolds (slotState pMod).buf 0 pMod ∧ pMod ≤ pMod) ∧
    (2 ^ 255 < 2 ^ 256 ∧ SlotHolds (slotState (2 ^ 255)).buf 0 (2 ^ 255) ∧ pMod ≤ 2 ^ 255) :=
  ⟨⟨by decide, slotState_holds _, by decide⟩, ⟨by decide, slotState_holds _, le_refl _⟩, by decide, slotState_holds _,
    pMod_lt.le⟩

theorem witness_FstResult : (fState m1 0 true).buf.wf = true ∧ (fState m1 0 true).getF 1 = some (toFp m1) ∧
    State.reset.getF 1 = none := ⟨fState_wf .., fState_one .., State.getF_reset _⟩

/-! The scalar family. -/

theorem sState_zero (a b : Nat) : (sState a b).getS 0 = some (toZl a) := by simp [sState, State.getS_setS]

theorem sState_one (a b : Nat) : (sState a b).getS 1 = some (toZl b) := by simp [sState]

theorem witness_SaddResult : (sState l1 l1).getS 0 = some (toZl l1) ∧ (sState l1 l1).getS 1 = some (toZl l1) :=
  ⟨sState_zero .., sState_one ..⟩

theorem witness_SmulResult : (sState l1 0).getS 0 = some (toZl l1) ∧ (sState l1 0).getS 1 = some (toZl 0) :=
  ⟨sState_zero .., sState_one ..⟩

theorem witness_SldResult :
    (l1 < 2 ^ 256 ∧ SlotHolds (slotState l1).buf 0 l1 ∧ (toZl l1).val = l1) ∧
    (lOrd < 2 ^ 256 ∧ SlotHolds (slotState lOrd).buf 0 lOrd ∧ lOrd ≤ lOrd) :=
  ⟨⟨by decide, slotState_holds _, by decide⟩, by decide, slotState_holds _, le_refl _⟩

theorem witness_SstResult : (sState l1 0).buf.wf = true ∧ (sState l1 0).getS 0 = some (toZl l1) ∧
    State.reset.getS 1 = none := ⟨rfl, sState_zero .., State.getS_reset _⟩

/-! The curve, the point family and the codec. -/

theorem Q4_onCurve : onCurve Q4 = true := by decide +kernel

theorem pState_scalar (k : Nat) (A B : Point) (f : Bool) : (pState k A B f).getS 1 = some (toZl k) := by
  simp [pState]

theorem pState_one (k : Nat) (A B : Point) (f : Bool) : (pState k A B f).getP 1 = some A := by
  simp [pState, State.getP_setP]

theorem pState_two (k : Nat) (A B : Point) (f : Bool) : (pState k A B f).getP 2 = some B := by
  simp [pState]

theorem witness_AdditionIsCompleteAndClosed : onCurve T1 = true ∧ onCurve Q4 = true ∧
    ∃ t : Int, t = (dCurve : Int) * T1.x.val * Q4.x.val * T1.y.val * Q4.y.val := ⟨T1_onCurve, Q4_onCurve, _, rfl⟩

theorem witness_IdentityInverseCommutativity : onCurve Q4 = true := Q4_onCurve

theorem witness_AdditionIsAssociative : onCurve T1 = true ∧ onCurve Q4 = true ∧ onCurve pointIdentity = true :=
  ⟨T1_onCurve, Q4_onCurve, by decide⟩

theorem witness_MultipleIsRepeatedAddition : onCurve Q4 = true := Q4_onCurve

theorem witness_PaddResult : (pState 0 T1 Q4 true).getP 1 = some T1 ∧ (pState 0 T1 Q4 true).getP 2 = some Q4 :=
  ⟨pState_one .., pState_two ..⟩

theorem witness_PdblResult : (pState 0 Q4 T1 true).getP 1 = some Q4 ∧ onCurve Q4 = true := ⟨pState_one .., Q4_onCurve⟩

theorem witness_PnegResult : (pState 0 Q2 T1 true).getP 1 = some Q2 := pState_one ..

theorem witness_PsmulResult : (pState l1 T1 Q4 true).getS 1 = some (toZl l1) ∧ (pState l1 T1 Q4 true).getP 1 = some T1 ∧
    onCurve T1 = true := ⟨pState_scalar .., pState_one .., T1_onCurve⟩

theorem witness_PeqResult : ((pState 0 Q4 Q4 false).getP 1 = some Q4 ∧ Q4.x = Q4.x ∧ Q4.y = Q4.y) ∧
    ((pState 0 Q4 nQ4 false).getP 1 = some Q4 ∧ (pState 0 Q4 nQ4 false).getP 2 = some nQ4 ∧
      ¬ (Q4.x = nQ4.x ∧ Q4.y = nQ4.y)) := ⟨⟨pState_one .., rfl, rfl⟩, pState_one .., pState_two .., by decide⟩

theorem witness_PdecResult :
    (pMod < 2 ^ 256 ∧ SlotHolds (slotState pMod).buf 0 pMod ∧ pMod ≤ pMod % 2 ^ 255) ∧
    (codeT1 < 2 ^ 256 ∧ SlotHolds (slotState codeT1).buf 0 codeT1 ∧ onCurve T1 = true ∧
      T1.y.val = codeT1 % 2 ^ 255 ∧ T1.x.val % 2 = codeT1 / 2 ^ 255) ∧
    (1 + 2 ^ 255 < 2 ^ 256 ∧ SlotHolds (slotState (1 + 2 ^ 255)).buf 0 (1 + 2 ^ 255) ∧ (1 + 2 ^ 255) % 2 ^ 255 < pMod ∧
      ¬ ∃ A : Point, onCurve A = true ∧ A.y.val = (1 + 2 ^ 255) % 2 ^ 255 ∧ A.x.val % 2 = (1 + 2 ^ 255) / 2 ^ 255) := by
  refine ⟨⟨by decide, slotState_holds _, by decide⟩,
    ⟨by decide, slotState_holds _, T1_onCurve, by decide, by decide⟩, by decide, slotState_holds _, by decide, ?_⟩
  rintro ⟨A, hA, hy, hx⟩
  have := pMod_fact
  have hy1 : A.y = fpOne := Fin.ext (hy.trans (by decide))
  rw [onCurve_iff, hy1, fpZ_one] at hA
  unfold Edwards.OnE at hA
  have hd : (dZ : ZMod pMod) + 1 ≠ 0 := by
    intro h
    have h2 : toFp (dCurve + 1) = fpZero := by
      apply fpZ_injective
      rw [fpZ_toFp, fpZ_zero, Nat.cast_add, Nat.cast_one]
      exact h
    exact absurd h2 (by decide)
  have h0 : fpZ A.x * fpZ A.x = 0 := by
    have h3 : (dZ + 1) * (fpZ A.x * fpZ A.x) = 0 := by linear_combination -hA
    exact (mul_eq_zero.1 h3).resolve_left hd
  have hx0 : A.x = fpZero := fpZ_eq_zero.1 (mul_self_eq_zero.1 h0)
  rw [hx0] at hx
  exact absurd hx (by decide)

theorem witness_PencResult : (pState 0 T1 Q4 true).buf.wf = true ∧ (pState 0 T1 Q4 true).getP 1 = some T1 ∧
    State.reset.getP 1 = none := ⟨rfl, pState_one .., State.getP_reset _⟩

theorem witness_CodecRoundTrips :
    ((slotState codeNegT1).buf.wf = true ∧ ∃ t u, exec (.pdec 1 0) (slotState codeNegT1) = .next t ∧ t.err = .ok ∧ exec (.penc 31 1) t = .next u) ∧
    ((pState 0 T1 Q4 true).buf.wf = true ∧ (pState 0 T1 Q4 true).getP 1 = some T1 ∧ onCurve T1 = true ∧
      ∃ t, exec (.penc 31 1) (pState 0 T1 Q4 true) = .next t ∧ t.err = .ok) := by
  constructor
  · obtain ⟨t, ht, he⟩ := next_of (exec (.pdec 1 0) (slotState codeNegT1)) (fun t => t.err = .ok) (by decide +kernel)
    obtain ⟨u, hu⟩ := storeSlot_next (t.getP 1) pointCode 31 t
    exact ⟨by decide +kernel, t, u, ht, he, hu⟩
  · exact ⟨rfl, pState_one .., T1_onCurve, next_of _ _ (by decide +kernel)⟩

/-! PMSM. -/

theorem msmState_runs : ∀ a : Fin 16, a.val ≤ 1 → msmState.getS a = some (toZl 1) ∧ msmState.getP a = some T1 := by
  decide +kernel

theorem witness_PmsmResult :
    (0 + (15 : Nat) ≤ 15 ∧ 15 + 0 ≤ 15 ∧ (0 : CountField) ≠ 15) ∧
    (∃ (j : Nat) (a : SReg) (b : PReg), j ≤ 15 ∧ a.val = 0 + j ∧ b.val = 0 + j ∧
      (msmState.getS a = none ∨ msmState.getP b = none)) ∧
    (∀ (j : Nat) (a : SReg) (b : PReg), j ≤ (1 : CountField).val → a.val = 0 + j → b.val = 0 + j →
      msmState.getS a = some (toZl 1) ∧ msmState.getP b = some T1 ∧ onCurve T1 = true) := by
  refine ⟨by decide, ⟨15, 15, 15, by decide, rfl, rfl, .inl (by decide +kernel)⟩, ?_⟩
  intro j a b hj ha hb
  have h1 : (1 : CountField).val = 1 := rfl
  exact ⟨(msmState_runs a (by omega)).1, (msmState_runs b (by omega)).2, T1_onCurve⟩

theorem witness_PmsmIsFoldOfPsmul :
    ∀ (j : Nat) (a : SReg) (b : PReg), j ≤ (1 : CountField).val → a.val = 0 + j → b.val = 0 + j →
      ∃ t, exec (.psmul 5 a b true) msmState = .next t ∧ t.err = .ok ∧ t.getP 5 = some (pointMul (toZl 1).val T1) := by
  intro j a b hj ha hb
  have h1 : (1 : CountField).val = 1 := rfl
  refine ⟨(msmState.setP 5 (some (pointMul (toZl 1).val T1))).setStatus .ok, ?_, rfl, by simp⟩
  rw [exec_psmul, (msmState_runs a (by omega)).1, (msmState_runs b (by omega)).2, rule2_some, endCommand_ok]

/-! All commands. -/

theorem witness_OnlyTheDestinationRegisterChanges : ∃ t, exec (.fadd 15 1 2) (fState m1 5 true) = .next t ∧
    destOf (.fadd 15 1 2) ≠ .f 14 := by
  obtain ⟨t, ht, _⟩ := next_of (exec (.fadd 15 1 2) (fState m1 5 true)) (fun t => t.err = .ok) (by decide +kernel)
  exact ⟨t, ht, by decide⟩

theorem witness_OnlyFisqrtAndPeqWriteFlag :
    (∃ t, exec (.fmul 3 1 2) (fState m1 5 true) = .next t ∧ writesFlag (.fmul 3 1 2) = false) ∧
    (∃ t, exec (.fisqrt 3 9) (fState m1 5 true) = .next t ∧ t.err ≠ .ok) := by
  constructor
  · obtain ⟨t, ht, _⟩ := next_of (exec (.fmul 3 1 2) (fState m1 5 true)) (fun t => t.err = .ok) (by decide +kernel)
    exact ⟨t, ht, rfl⟩
  · exact next_of _ _ (by decide +kernel)

theorem witness_OnlyTheNamedSlotChanges :
    (∃ t, exec (.fst 31 1) (fState m1 5 true) = .next t ∧ t.err = .ok) ∧
    (∀ k : Slot, storeSlotOf (.fst 31 1) = some k → 991 < slotAddr k ∨ slotAddr k + 32 ≤ 991) ∧
    (∃ t, exec (.fst 31 9) (fState m1 5 true) = .next t ∧ t.err ≠ .ok) ∧ storeSlotOf (.fadd 3 1 2) = none := by
  refine ⟨next_of _ _ (by decide +kernel), ?_, next_of _ _ (by decide +kernel), rfl⟩
  intro k h
  have hk := Option.some.inj h
  subst hk
  decide

theorem witness_StatusAfterACommand : (Instr.pmsm 5 0 0 1 1 false).wellFormed = true ∧
    ∃ t, exec (.pmsm 5 0 0 1 1 false) msmState = .next t ∧ t.err = .ok :=
  ⟨by decide, next_of _ _ (by decide +kernel)⟩

theorem witness_NoneSourceIsInvalidOperand :
    ((Instr.fst 31 9).wellFormed = true ∧ countsDiffer (.fst 31 9) = false ∧
      sourcesValid (.fst 31 9) (fState m1 5 true) = false) ∧
    ((Instr.pmsm 5 0 0 2 2 true).wellFormed = true ∧ countsDiffer (.pmsm 5 0 0 2 2 true) = false ∧
      sourcesValid (.pmsm 5 0 0 2 2 true) msmState = false) := by decide +kernel

theorem witness_FailedCommandLeavesNone : (Instr.finv 2 1).wellFormed = true ∧
    ∃ t, exec (.finv 2 1) (fState 0 5 true) = .next t ∧ t.err ≠ .ok := ⟨rfl, next_of _ _ (by decide +kernel)⟩

theorem witness_ResultDependsOnInputsOnly :
    SameInputs (.fsel 3 1 2) (fState 5 7 true) ((fState 5 7 true).setF 9 (some (toFp 1))) ∧
    (Instr.fsel 3 1 2).wellFormed = true ∧ (fState 5 7 true).buf.wf = true ∧
    ((fState 5 7 true).setF 9 (some (toFp 1))).buf.wf = true ∧
    (∃ t, exec (.fsel 3 1 2) (fState 5 7 true) = .next t ∧ t.err = .ok) ∧
    (∃ t, exec (.fsel 3 1 2) ((fState 5 7 true).setF 9 (some (toFp 1))) = .next t ∧ t.err = .ok) := by
  refine ⟨⟨?_, ?_, rfl⟩, rfl, rfl, rfl, next_of _ _ (by decide +kernel), next_of _ _ (by decide +kernel)⟩
  · simp [State.getF_setF]
  · simp [State.getF_setF]

theorem witness_EveryStepKeepsTheInvariant : (hostState [.write 0x000 4 0x00001232#32]).Inv ∧
    ∃ t, step (hostState [.write 0x000 4 0x00001232#32]) = .next t ∧ t.err = .ok :=
  ⟨hostState_inv _, next_of _ _ (by decide +kernel)⟩

end Sys2Proof.Tests
end

section
/-!
PROOF of O56 (`00_scope.md` R5, `10_state.md` R35). A relation on rules, `SameRule`, says that two rules raise the same code
or do writes that agree on what the command names. One lemma per shape of rule gives it from equal operands, and one lemma
carries it through the end of the command; each command then has one of these shapes.
-/

namespace Sys2Proof.Machine

/-! ## The relations -/

/-- Two states after the writes of `i` hold the same in everything its row of `10_state.md` R35 names as written. -/
structure SameWrites (i : Instr) (u u' : State) : Prop where
  dest : SameDest (destOf i) u u'
  flag : writesFlag i = true → u.flag = u'.flag
  slot : ∀ k : Slot, storeSlotOf i = some k → ∀ j, j < 32 → memByte u.buf (slotAddr k + j) = memByte u'.buf (slotAddr k + j)

/-- Two runs of the rule of `i` raise the same nonzero code, or both complete with the same writes. -/
inductive SameRule (i : Instr) : Except ResultCode State → Except ResultCode State → Prop
  | ok {u u' : State} (hw : SameWrites i u u') : SameRule i (.ok u) (.ok u')
  | error {c : ResultCode} (hc : c ≠ .ok) : SameRule i (.error c) (.error c)

/-- Two states after the command `i` show the same result: the conclusion of `Obligations.ResultDependsOnInputsOnly`. -/
def SameResult (i : Instr) (t t' : State) : Prop :=
  t.err = t'.err ∧ SameDest (destOf i) t t' ∧ (writesFlag i = true → t.err = .ok → t.flag = t'.flag) ∧
    (∀ k : Slot, storeSlotOf i = some k → t.err = .ok →
      ∀ j, j < 32 → memByte t.buf (slotAddr k + j) = memByte t'.buf (slotAddr k + j))

variable {i : Instr} {s s' t t' : State}

/-! ## Destinations -/

@[simp] theorem sameDest_setStatus (d : Dest) (c : ResultCode) (u u' : State) :
    SameDest d (u.setStatus c) (u'.setStatus c) ↔ SameDest d u u' := by
  cases d <;> rfl

theorem sameDest_invalidate (d : Dest) (u u' : State) : SameDest d (u.invalidate d) (u'.invalidate d) := by
  cases d <;> simp [SameDest]

theorem sameDest_setF (r : FReg) (v : Option Fp) (u u' : State) : SameDest (.f r) (u.setF r v) (u'.setF r v) := by
  simp [SameDest]

theorem sameDest_setS (r : SReg) (v : Option Zl) (u u' : State) : SameDest (.s r) (u.setS r v) (u'.setS r v) := by
  simp [SameDest]

theorem sameDest_setP (r : PReg) (v : Option Point) (u u' : State) : SameDest (.p r) (u.setP r v) (u'.setP r v) := by
  simp [SameDest]

/-! ## Writes -/

/-- For a command that writes neither FLAG nor BUF, its destination is all there is to compare. -/
theorem SameWrites.of_dest {u u' : State} (hd : SameDest (destOf i) u u') (hf : writesFlag i = false)
    (hk : storeSlotOf i = none) : SameWrites i u u' where
  dest := hd
  flag h := by rw [hf] at h; cases h
  slot k h := by rw [hk] at h; cases h

/-- A command that writes FLAG and no slot leaves the same FLAG where it writes the same value. -/
theorem SameWrites.setFlag {u u' : State} (b : Bool) (hd : SameDest (destOf i) (u.setFlag b) (u'.setFlag b))
    (hk : storeSlotOf i = none) : SameWrites i (u.setFlag b) (u'.setFlag b) where
  dest := hd
  flag _ := rfl
  slot k h := by rw [hk] at h; cases h

theorem memByte_bufWrite_le32 {m : Memory} {k : Slot} {n j : Nat} (hm : m.wf = true) (hj : j < 32) :
    (memByte (bufWrite m k (le32 n)) (slotAddr k + j)).toNat = n / 256 ^ j % 256 := by
  rw [slotAddr]
  exact slotHolds_bufWrite m k n hm j hj

/-- A store leaves the same bytes in its slot, whatever BUF held before. -/
theorem SameWrites.setSlot {k : Slot} (n : Nat) (hd : destOf i = .none) (hf : writesFlag i = false)
    (hk : storeSlotOf i = some k) (hm : s.buf.wf = true) (hm' : s'.buf.wf = true) :
    SameWrites i (s.setSlot k (le32 n)) (s'.setSlot k (le32 n)) where
  dest := by rw [hd]; trivial
  flag h := by rw [hf] at h; cases h
  slot l hl j hj := by
    obtain rfl : k = l := Option.some.inj (hk.symm.trans hl)
    rw [State.buf_setSlot, State.buf_setSlot]
    exact BitVec.eq_of_toNat_eq ((memByte_bufWrite_le32 hm hj).trans (memByte_bufWrite_le32 hm' hj).symm)

/-! ## Rules: equal operands give the same rule -/

theorem SameRule.rule1 {α : Type} {a a' : Option α} {k k' : α → State} (ha : a = a')
    (hw : ∀ x, SameWrites i (k x) (k' x)) : SameRule i (rule1 a k) (rule1 a' k') := by
  subst ha
  cases a with
  | none => exact .error (by decide)
  | some x => exact .ok (hw x)

theorem SameRule.rule2 {α β : Type} {a a' : Option α} {b b' : Option β} {k k' : α → β → State} (ha : a = a')
    (hb : b = b') (hw : ∀ x y, SameWrites i (k x y) (k' x y)) : SameRule i (rule2 a b k) (rule2 a' b' k') := by
  subst ha hb
  cases a with
  | none => exact .error (by decide)
  | some x =>
    cases b with
    | none => exact .error (by decide)
    | some y => exact .ok (hw x y)

theorem readRun_congr {α : Type} (file file' : Vector (Option α) Config.nReg) :
    ∀ n k : Nat, (∀ j, j < n → file[k + j]? = file'[k + j]?) → readRun file k n = readRun file' k n := by
  intro n
  induction n with
  | zero => intro k _; rfl
  | succ n ih =>
    intro k h
    have hhead : file[k]? = file'[k]? := h 0 (Nat.succ_pos n)
    have htail : readRun file (k + 1) n = readRun file' (k + 1) n := ih (k + 1) fun j hj => by
      rw [Nat.add_right_comm]
      exact h (j + 1) (Nat.succ_lt_succ hj)
    rw [readRun, readRun, hhead, htail]

theorem SameRule.pmsm {rd : PReg} {ra : SReg} {rb : PReg} {nsm1 npm1 : CountField}
    (hS : readRun s.sReg ra.val (nsm1.val + 1) = readRun s'.sReg ra.val (nsm1.val + 1))
    (hP : readRun s.pReg rb.val (npm1.val + 1) = readRun s'.pReg rb.val (npm1.val + 1))
    (hw : ∀ A, SameWrites i (s.setP rd A) (s'.setP rd A)) :
    SameRule i (pmsmRule rd ra rb nsm1 npm1 s) (pmsmRule rd ra rb nsm1 npm1 s') := by
  unfold pmsmRule
  rw [hS, hP]
  by_cases hn : nsm1 = npm1
  · rw [if_neg (not_not.2 hn), if_neg (not_not.2 hn)]
    cases hss : readRun s'.sReg ra.val (nsm1.val + 1) with
    | error c =>
      rw [readRun_code _ _ _ _ hss]
      exact .error (by decide)
    | ok ss =>
      cases hAs : readRun s'.pReg rb.val (npm1.val + 1) with
      | error c =>
        rw [readRun_code _ _ _ _ hAs]
        exact .error (by decide)
      | ok As => exact .ok (hw _)
  · rw [if_pos hn, if_pos hn]
    exact .error (by decide)

/-! ## Commands: the same rule gives the same result -/

theorem sameResult_of_endCommand {r r' : Except ResultCode State} (h : endCommand (destOf i) s r = .next t)
    (h' : endCommand (destOf i) s' r' = .next t') (hr : SameRule i r r') : SameResult i t t' := by
  cases hr with
  | ok hw =>
    cases h
    cases h'
    exact ⟨rfl, (sameDest_setStatus ..).2 hw.dest, fun hf _ => hw.flag hf, fun k hk _ => hw.slot k hk⟩
  | error hc =>
    cases h
    cases h'
    exact ⟨rfl, (sameDest_setStatus ..).2 (sameDest_invalidate ..), fun _ he => absurd he hc, fun _ _ he => absurd he hc⟩

theorem sameResult_of_loadSlot {α : Type} {dec : Nat → Except ResultCode α} {put : State → α → State} {slot : Slot}
    (h : loadSlot (destOf i) dec put slot s = .next t) (h' : loadSlot (destOf i) dec put slot s' = .next t')
    (hslot : bufRead s.buf slot = bufRead s'.buf slot) (hc : ∀ n c, dec n = .error c → c ≠ .ok)
    (hw : ∀ v, SameWrites i (put s v) (put s' v)) : SameResult i t t' := by
  have hint : slotInt s slot = slotInt s' slot := congrArg fromLE hslot
  refine sameResult_of_endCommand h h' ?_
  rw [hint]
  cases hd : dec (slotInt s' slot) with
  | error c => exact .error (hc _ c hd)
  | ok v => exact .ok (hw v)

theorem sameResult_of_storeSlot {α : Type} {a a' : Option α} {code : α → Nat} {slot : Slot}
    (h : storeSlot a code slot s = .next t) (h' : storeSlot a' code slot s' = .next t') (ha : a = a')
    (hd : destOf i = .none) (hf : writesFlag i = false) (hk : storeSlotOf i = some slot) (hm : s.buf.wf = true)
    (hm' : s'.buf.wf = true) : SameResult i t t' := by
  rw [storeSlot, ← hd] at h h'
  exact sameResult_of_endCommand h h' (.rule1 ha fun v => .setSlot (code v) hd hf hk hm hm')

/-- Equal inputs give the same result, command by command. -/
theorem exec_sameResult (hin : SameInputs i s s') (h : exec i s = .next t) (h' : exec i s' = .next t')
    (hwf : i.wellFormed = true) (hm : s.buf.wf = true) (hm' : s'.buf.wf = true) : SameResult i t t' := by
  cases i with
  | fadd rd ra rb =>
    obtain ⟨ha, hb⟩ := hin
    rw [exec_fadd] at h h'
    exact sameResult_of_endCommand h h' (.rule2 ha hb fun _ _ => .of_dest (sameDest_setF ..) rfl rfl)
  | fsub rd ra rb =>
    obtain ⟨ha, hb⟩ := hin
    rw [exec_fsub] at h h'
    exact sameResult_of_endCommand h h' (.rule2 ha hb fun _ _ => .of_dest (sameDest_setF ..) rfl rfl)
  | fneg rd ra =>
    rw [exec_fneg] at h h'
    exact sameResult_of_endCommand h h' (.rule1 hin fun _ => .of_dest (sameDest_setF ..) rfl rfl)
  | fmul rd ra rb =>
    obtain ⟨ha, hb⟩ := hin
    rw [exec_fmul] at h h'
    exact sameResult_of_endCommand h h' (.rule2 ha hb fun _ _ => .of_dest (sameDest_setF ..) rfl rfl)
  | fsqr rd ra =>
    rw [exec_fsqr] at h h'
    exact sameResult_of_endCommand h h' (.rule1 hin fun _ => .of_dest (sameDest_setF ..) rfl rfl)
  | finv rd ra =>
    have ha : s.getF ra = s'.getF ra := hin
    rw [exec_finv] at h h'
    refine sameResult_of_endCommand h h' ?_
    rw [ha]
    cases s'.getF ra with
    | none => exact .error (by decide)
    | some a =>
      by_cases h0 : a = fpZero
      · simp only [need_some, if_pos h0]
        exact .error (by decide)
      · simp only [need_some, if_neg h0]
        exact .ok (.of_dest (sameDest_setF ..) rfl rfl)
  | fisqrt rd ra =>
    rw [exec_fisqrt] at h h'
    exact sameResult_of_endCommand h h' (.rule1 hin fun _ => .setFlag _ (sameDest_setF ..) rfl)
  | fsel rd ra rb =>
    obtain ⟨ha, hb, hflag⟩ := hin
    rw [exec_fsel] at h h'
    rw [hflag] at h
    exact sameResult_of_endCommand h h' (.rule2 ha hb fun _ _ => .of_dest (sameDest_setF ..) rfl rfl)
  | fld rd slot =>
    rw [exec_fld] at h h'
    refine sameResult_of_loadSlot h h' hin (fun n c hc => ?_) fun _ => .of_dest (sameDest_setF ..) rfl rfl
    rw [fpDecode_code hc]
    decide
  | fst slot ra =>
    rw [exec_fst] at h h'
    exact sameResult_of_storeSlot h h' hin rfl rfl rfl hm hm'
  | sadd rd ra rb =>
    obtain ⟨ha, hb⟩ := hin
    rw [exec_sadd] at h h'
    exact sameResult_of_endCommand h h' (.rule2 ha hb fun _ _ => .of_dest (sameDest_setS ..) rfl rfl)
  | smul rd ra rb =>
    obtain ⟨ha, hb⟩ := hin
    rw [exec_smul] at h h'
    exact sameResult_of_endCommand h h' (.rule2 ha hb fun _ _ => .of_dest (sameDest_setS ..) rfl rfl)
  | szero rd =>
    rw [exec_szero] at h h'
    exact sameResult_of_endCommand h h' (.ok (.of_dest (sameDest_setS ..) rfl rfl))
  | sone rd =>
    rw [exec_sone] at h h'
    exact sameResult_of_endCommand h h' (.ok (.of_dest (sameDest_setS ..) rfl rfl))
  | sld rd slot =>
    rw [exec_sld] at h h'
    refine sameResult_of_loadSlot h h' hin (fun n c hc => ?_) fun _ => .of_dest (sameDest_setS ..) rfl rfl
    rw [zlDecode_code hc]
    decide
  | sst slot ra =>
    rw [exec_sst] at h h'
    exact sameResult_of_storeSlot h h' hin rfl rfl rfl hm hm'
  | pident rd =>
    rw [exec_pident] at h h'
    exact sameResult_of_endCommand h h' (.ok (.of_dest (sameDest_setP ..) rfl rfl))
  | padd rd ra rb =>
    obtain ⟨ha, hb⟩ := hin
    rw [exec_padd] at h h'
    exact sameResult_of_endCommand h h' (.rule2 ha hb fun _ _ => .of_dest (sameDest_setP ..) rfl rfl)
  | pdbl rd ra =>
    rw [exec_pdbl] at h h'
    exact sameResult_of_endCommand h h' (.rule1 hin fun _ => .of_dest (sameDest_setP ..) rfl rfl)
  | pneg rd ra =>
    rw [exec_pneg] at h h'
    exact sameResult_of_endCommand h h' (.rule1 hin fun _ => .of_dest (sameDest_setP ..) rfl rfl)
  | psmul rd ra rb vt =>
    obtain ⟨ha, hb⟩ := hin
    rw [exec_psmul] at h h'
    exact sameResult_of_endCommand h h' (.rule2 ha hb fun _ _ => .of_dest (sameDest_setP ..) rfl rfl)
  | peq ra rb =>
    obtain ⟨ha, hb⟩ := hin
    rw [exec_peq] at h h'
    exact sameResult_of_endCommand h h' (.rule2 ha hb fun _ _ => .setFlag _ trivial rfl)
  | pdec rd slot =>
    rw [exec_pdec] at h h'
    refine sameResult_of_loadSlot h h' hin (fun n c hc => ?_) fun _ => .of_dest (sameDest_setP ..) rfl rfl
    rcases pointDecode_code hc with rfl | rfl <;> decide
  | penc slot ra =>
    rw [exec_penc] at h h'
    exact sameResult_of_storeSlot h h' hin rfl rfl rfl hm hm'
  | pmsm rd ra rb nsm1 npm1 vt =>
    obtain ⟨hscalars, hpoints⟩ := hin
    rw [exec_pmsm_of_wellFormed _ _ _ _ _ _ _ hwf] at h h'
    have hS := readRun_congr s.sReg s'.sReg (nsm1.val + 1) ra.val fun j hj => hscalars j (Nat.le_of_lt_succ hj)
    have hP := readRun_congr s.pReg s'.pReg (npm1.val + 1) rb.val fun j hj => hpoints j (Nat.le_of_lt_succ hj)
    exact sameResult_of_endCommand h h' (.pmsm hS hP fun _ => .of_dest (sameDest_setP ..) rfl rfl)

end Sys2Proof.Machine
end

section

namespace Sys2Proof.Machine

/-- Settles O56: equal inputs give related rules, and related rules end in the same result. -/
theorem resultDependsOnInputsOnly : Obligations.ResultDependsOnInputsOnly :=
  fun _ _ _ _ _ hin h h' hwf hm hm' => exec_sameResult hin h h' hwf hm hm'

end Sys2Proof.Machine
end

section
/-!
The points the commands compute stay on E (`10_state.md` R22). The addition law is Laws/Edwards.lean's `add_onE`; for PDEC the
root finder is shown to return a root whatever candidate it keeps (`40_field.md` R107), and a root of w = (y² − 1)/(d·y² + 1)
solves the curve equation because d·y² + 1 is never 0 (`43_codec.md` R171, R172).
-/

namespace Sys2Proof.Machine

open Sys2Proof.Config

/-! ## Square roots -/

theorem fpZ_toFp_powMod (a : Fp) (k : Nat) : fpZ (toFp (powMod pMod a.val k)) = fpZ a ^ k := by
  rw [fpZ_toFp, powMod_cast _ _ _ pMod_pos, fpZ]

/-- For a nonzero square a, the candidate c = a^((p−5)/8) has c·c·a = ±1: that is a^((p−1)/4), a root of Euler's power. -/
theorem sq_candidate_mul_eq_one_or {a : ZMod pMod} (ha : a ≠ 0) (hsq : IsSquare a) :
    a ^ ((pMod - 5) / 8) * a ^ ((pMod - 5) / 8) * a = 1 ∨ a ^ ((pMod - 5) / 8) * a ^ ((pMod - 5) / 8) * a = -1 := by
  have := pMod_fact
  have hquarter : (pMod - 5) / 8 + (pMod - 5) / 8 + 1 = (pMod - 1) / 4 := by decide
  have hhalf : (pMod - 1) / 4 + (pMod - 1) / 4 = pMod / 2 := by decide
  rw [← pow_add, ← pow_succ, hquarter]
  apply mul_self_eq_one_iff.1
  rw [← pow_add, hhalf]
  exact (ZMod.euler_criterion pMod ha).1 hsq

theorem isInvSqrtOf_iff (a r : Fp) : isInvSqrtOf a r = true ↔ fpZ r * fpZ r * fpZ a = 1 := by
  rw [isInvSqrtOf, decide_eq_true_eq, ← fpZ_inj, fpZ_mul, fpZ_mul, fpZ_one]

theorem fpZ_withSign_sq (s : Nat) (r : Fp) : fpZ (withSign s r) * fpZ (withSign s r) = fpZ r * fpZ r := by
  unfold withSign
  split
  · rfl
  · rw [fpZ_neg, neg_mul_neg]

/-- What the root finder returns is an inverse square root (`40_field.md` R107). -/
theorem fpInvSqrt_sound {a r : Fp} (h : fpInvSqrt a = some r) : fpZ r * fpZ r * fpZ a = 1 := by
  unfold fpInvSqrt at h
  split at h
  case isFalse => cases h
  case isTrue hsq =>
    obtain ⟨hne, hsquare⟩ := hsq
    have hcandidate := sq_candidate_mul_eq_one_or (mt fpZ_eq_zero.1 hne) ((fpIsSquare_iff a).1 hsquare)
    dsimp only at h
    split at h
    case isTrue hroot =>
      rw [← Option.some.inj h, fpZ_withSign_sq]
      exact (isInvSqrtOf_iff _ _).1 hroot
    case isFalse hroot =>
      rw [isInvSqrtOf_iff, fpZ_toFp_powMod] at hroot
      rw [← Option.some.inj h, fpZ_withSign_sq, fpZ_mul, fpZ_toFp_powMod, fpZ_toFp]
      have hneg := hcandidate.resolve_left hroot
      linear_combination (fpZ a ^ ((pMod - 5) / 8) * fpZ a ^ ((pMod - 5) / 8) * fpZ a) * sqrtM1_sq - hneg

theorem fpSqrt_sound {w x : Fp} (h : fpSqrt w = some x) : fpZ x * fpZ x = fpZ w := by
  unfold fpSqrt at h
  split at h
  case isTrue hw => rw [← Option.some.inj h, hw, fpZ_zero, mul_zero]
  case isFalse =>
    obtain ⟨r, hr, rfl⟩ := Option.map_eq_some_iff.1 h
    rw [fpZ_mul]
    linear_combination fpZ w * fpInvSqrt_sound hr

/-! ## The operations on points -/

theorem onCurve_pointIdentity : onCurve pointIdentity = true := by
  have := pMod_fact
  rw [onCurve_iff, Edwards.OnE]
  simp [pointIdentity]

theorem onCurve_pointNeg {A : Point} (hA : onCurve A = true) : onCurve (pointNeg A) = true := by
  have := pMod_fact
  rw [onCurve_iff, Edwards.OnE] at hA ⊢
  rw [pointNeg, fpZ_neg, neg_mul_neg]
  exact hA

theorem onCurve_pointAdd {A B : Point} (hA : onCurve A = true) (hB : onCurve B = true) :
    onCurve (pointAdd A B) = true := by
  have := pMod_fact
  rw [onCurve_iff] at hA hB ⊢
  rw [fpZ_pointAdd_x, fpZ_pointAdd_y]
  exact Edwards.add_onE sqrtM1Z_sq dZ_not_square hA hB

theorem onCurve_pointDouble {A : Point} (hA : onCurve A = true) : onCurve (pointDouble A) = true :=
  onCurve_pointAdd hA hA

theorem onCurve_pointMulBits (fuel : Nat) : ∀ (k : Nat) {A : Point}, onCurve A = true →
    onCurve (pointMulBits fuel k A) = true := by
  induction fuel with
  | zero =>
    intro k A _
    rw [pointMulBits_zero]
    exact onCurve_pointIdentity
  | succ fuel ih =>
    intro k A hA
    have hrest := ih (k / 2) (onCurve_pointDouble hA)
    rw [pointMulBits_succ]
    split
    · exact onCurve_pointAdd hA hrest
    · exact hrest

theorem onCurve_pointMul (k : Nat) {A : Point} (hA : onCurve A = true) : onCurve (pointMul k A) = true :=
  onCurve_pointMulBits _ k hA

theorem onCurve_foldl_pointAdd : ∀ (As : List Point) {A : Point}, onCurve A = true → (∀ B ∈ As, onCurve B = true) →
    onCurve (As.foldl pointAdd A) = true := by
  intro As
  induction As with
  | nil => intro A hA _; exact hA
  | cons B As ih =>
    intro A hA h
    obtain ⟨hB, hAs⟩ := List.forall_mem_cons.1 h
    rw [List.foldl_cons]
    exact ih (onCurve_pointAdd hA hB) hAs

theorem onCurve_pointSum {As : List Point} (h : ∀ A ∈ As, onCurve A = true) : onCurve (pointSum As) = true := by
  cases As with
  | nil =>
    rw [pointSum_nil]
    exact onCurve_pointIdentity
  | cons A As =>
    obtain ⟨hA, hAs⟩ := List.forall_mem_cons.1 h
    rw [pointSum_cons]
    exact onCurve_foldl_pointAdd As hA hAs

theorem onCurve_pointMultiSum (ss : List Zl) {As : List Point} (h : ∀ A ∈ As, onCurve A = true) :
    onCurve (pointMultiSum ss As) = true := by
  refine onCurve_pointSum fun B hB => ?_
  obtain ⟨j, hj, rfl⟩ := List.mem_iff_getElem.1 hB
  rw [List.getElem_zipWith]
  exact onCurve_pointMul _ (h _ (List.getElem_mem _))

/-! ## Decompression -/

/-- d·y² + 1 is nonzero: −1 is a square and d is not (`43_codec.md` R172). -/
theorem dZ_mul_sq_add_one_ne (y : ZMod pMod) : dZ * (y * y) + 1 ≠ 0 := by
  have := pMod_fact
  intro h
  have hy : y ≠ 0 := by
    rintro rfl
    simp at h
  refine dZ_not_square ⟨((sqrtM1 : Nat) : ZMod pMod) * y⁻¹, ?_⟩
  field_simp
  linear_combination h - sqrtM1Z_sq

/-- A root of the x² that y prescribes completes y to a point of E (`43_codec.md` R171, R172). -/
theorem onCurve_of_sq_eq_xSquared {x y : Fp} (h : fpZ x * fpZ x = fpZ (xSquared y)) : onCurve ⟨x, y⟩ = true := by
  have := pMod_fact
  have hne := dZ_mul_sq_add_one_ne (fpZ y)
  rw [xSquared, fpZ_mul, fpZ_inv, fpZ_sub, fpZ_add, fpZ_mul, fpZ_fpD, fpZ_sqr, fpZ_one, ← div_eq_mul_inv,
    eq_div_iff hne] at h
  rw [onCurve_iff, Edwards.OnE]
  linear_combination -h

theorem onCurve_of_pointFromY {y : Fp} {s : Nat} {A : Point} (h : pointFromY y s = .ok A) : onCurve A = true := by
  cases hr : fpSqrt (xSquared y) with
  | none =>
    rw [pointFromY_none s hr] at h
    cases h
  | some x =>
    rw [pointFromY_some s hr] at h
    split at h
    · cases h
    · cases h
      exact onCurve_of_sq_eq_xSquared ((fpZ_withSign_sq s x).trans (fpSqrt_sound hr))

/-- What PDEC's decoder accepts is a point of E (`43_codec.md` R175). -/
theorem onCurve_of_pointDecode {n : Nat} {A : Point} (h : pointDecode n = .ok A) : onCurve A = true := by
  rcases Nat.lt_or_ge (n % 2 ^ 255) pMod with hlt | hle
  · rw [pointDecode_of_lt ⟨_, hlt⟩ rfl] at h
    exact onCurve_of_pointFromY h
  · rw [pointDecode_of_le hle] at h
    cases h

end Sys2Proof.Machine
end

section
/-!
The frame of a command (`10_state.md` R24 to R26, R35): one fact per component of State about a command's own writes, and from
it what `exec` leaves of that component, by the three cases of `exec_cases`.
-/

namespace Sys2Proof.Machine

variable {i : Instr} {s t u : State}

/-! ## The writes of a successful command, case by case -/

/-- The rows of `10_state.md` R35 by what they write: a register of one of the three files (FISQRT also FLAG), a slot, or
FLAG alone. -/
inductive WriteCase (i : Instr) (s : State) : State → Prop
  | field (rd : FReg) (v : Fp) (b : Bool) (hd : destOf i = .f rd) (hb : writesFlag i = false → b = s.flag) :
      WriteCase i s ((s.setF rd (some v)).setFlag b)
  | scalar (rd : SReg) (v : Zl) (hd : destOf i = .s rd) : WriteCase i s (s.setS rd (some v))
  | point (rd : PReg) (A : Point) (hd : destOf i = .p rd) : WriteCase i s (s.setP rd (some A))
  | slot (k : Slot) (v : List Byte) (hk : storeSlotOf i = some k) (hv : v.length = 32) : WriteCase i s (s.setSlot k v)
  | flag (b : Bool) (hf : writesFlag i = true) : WriteCase i s (s.setFlag b)

/-- A command with neither a destination register nor a slot writes FLAG (it is PEQ). -/
theorem writesFlag_of_no_dest_no_slot (hd : destOf i = .none) (hk : storeSlotOf i = none) : writesFlag i = true :=
  match i, hd, hk with
  | .peq _ _, _, _ => rfl

theorem Writes.cases (h : Writes i s u) : WriteCase i s u := by
  unfold Writes at h
  split at h
  case h_1 rd hd =>
    obtain ⟨v, b, hb, rfl⟩ := h
    exact .field rd v b hd hb
  case h_2 rd hd =>
    obtain ⟨v, rfl⟩ := h
    exact .scalar rd v hd
  case h_3 rd hd =>
    obtain ⟨A, rfl⟩ := h
    exact .point rd A hd
  case h_4 hd =>
    split at h
    case h_1 k hk =>
      obtain ⟨v, hv, rfl⟩ := h
      exact .slot k v hk hv
    case h_2 hk =>
      obtain ⟨b, rfl⟩ := h
      exact .flag b (writesFlag_of_no_dest_no_slot hd hk)

/-! ## Registers: none but the destination (`10_state.md` R24) -/

theorem getF_setF_of_ne {r q : FReg} (s : State) (v : Option Fp) (h : Dest.f r ≠ .f q) : (s.setF r v).getF q = s.getF q := by
  rw [State.getF_setF, if_neg fun e => h (congrArg Dest.f e)]

theorem getS_setS_of_ne {r q : SReg} (s : State) (v : Option Zl) (h : Dest.s r ≠ .s q) : (s.setS r v).getS q = s.getS q := by
  rw [State.getS_setS, if_neg fun e => h (congrArg Dest.s e)]

theorem getP_setP_of_ne {r q : PReg} (s : State) (v : Option Point) (h : Dest.p r ≠ .p q) :
    (s.setP r v).getP q = s.getP q := by
  rw [State.getP_setP, if_neg fun e => h (congrArg Dest.p e)]

theorem getF_invalidate {d : Dest} {q : FReg} (s : State) (h : d ≠ .f q) : (s.invalidate d).getF q = s.getF q := by
  cases d with
  | f r => exact getF_setF_of_ne s none h
  | none | s r | p r => rfl

theorem getS_invalidate {d : Dest} {q : SReg} (s : State) (h : d ≠ .s q) : (s.invalidate d).getS q = s.getS q := by
  cases d with
  | s r => exact getS_setS_of_ne s none h
  | none | f r | p r => rfl

theorem getP_invalidate {d : Dest} {q : PReg} (s : State) (h : d ≠ .p q) : (s.invalidate d).getP q = s.getP q := by
  cases d with
  | p r => exact getP_setP_of_ne s none h
  | none | f r | s r => rfl

theorem Writes.getF {q : FReg} (h : Writes i s u) (hq : destOf i ≠ .f q) : u.getF q = s.getF q := by
  cases h.cases with
  | field rd v b hd _ => exact getF_setF_of_ne s _ (hd ▸ hq)
  | scalar | point | slot | flag => rfl

theorem Writes.getS {q : SReg} (h : Writes i s u) (hq : destOf i ≠ .s q) : u.getS q = s.getS q := by
  cases h.cases with
  | scalar rd v hd => exact getS_setS_of_ne s _ (hd ▸ hq)
  | field | point | slot | flag => rfl

theorem Writes.getP {q : PReg} (h : Writes i s u) (hq : destOf i ≠ .p q) : u.getP q = s.getP q := by
  cases h.cases with
  | point rd A hd => exact getP_setP_of_ne s _ (hd ▸ hq)
  | field | scalar | slot | flag => rfl

theorem exec_getF {q : FReg} (h : exec i s = .next t) (hq : destOf i ≠ .f q) : t.getF q = s.getF q := by
  rcases exec_cases h with ⟨_, rfl⟩ | ⟨c, _, _, rfl⟩ | ⟨u, hu, rfl⟩
  · rfl
  · exact getF_invalidate s hq
  · exact hu.getF hq

theorem exec_getS {q : SReg} (h : exec i s = .next t) (hq : destOf i ≠ .s q) : t.getS q = s.getS q := by
  rcases exec_cases h with ⟨_, rfl⟩ | ⟨c, _, _, rfl⟩ | ⟨u, hu, rfl⟩
  · rfl
  · exact getS_invalidate s hq
  · exact hu.getS hq

theorem exec_getP {q : PReg} (h : exec i s = .next t) (hq : destOf i ≠ .p q) : t.getP q = s.getP q := by
  rcases exec_cases h with ⟨_, rfl⟩ | ⟨c, _, _, rfl⟩ | ⟨u, hu, rfl⟩
  · rfl
  · exact getP_invalidate s hq
  · exact hu.getP hq

/-! ## FLAG (`10_state.md` R25) -/

theorem Writes.flag (h : Writes i s u) (hf : writesFlag i = false) : u.flag = s.flag := by
  cases h.cases with
  | field rd v b _ hb => exact hb hf
  | flag b hb => rw [hf] at hb; cases hb
  | scalar | point | slot => rfl

theorem exec_flag (h : exec i s = .next t) (hf : writesFlag i = false ∨ t.err ≠ .ok) : t.flag = s.flag := by
  rcases exec_cases h with ⟨_, rfl⟩ | ⟨c, _, _, rfl⟩ | ⟨u, hu, rfl⟩
  · rfl
  · rw [State.flag_setStatus, State.flag_invalidate]
  · exact hu.flag (hf.resolve_right fun herr => herr rfl)

/-! ## BUF and the host's side (`10_state.md` R35, `20_memory.md` R52) -/

theorem Writes.buf (h : Writes i s u) : u.buf = s.buf ∨
    ∃ (k : Slot) (v : List Byte), storeSlotOf i = some k ∧ v.length = 32 ∧ u.buf = bufWrite s.buf k v := by
  cases h.cases with
  | slot k v hk hv => exact .inr ⟨k, v, hk, hv, rfl⟩
  | field | scalar | point | flag => exact .inl rfl

/-- BUF after a command: as before, or, with code 0x00, as before but for the slot the command names. -/
theorem exec_buf (h : exec i s = .next t) : t.buf = s.buf ∨ t.err = .ok ∧
    ∃ (k : Slot) (v : List Byte), storeSlotOf i = some k ∧ v.length = 32 ∧ t.buf = bufWrite s.buf k v := by
  rcases exec_cases h with ⟨_, rfl⟩ | ⟨c, _, _, rfl⟩ | ⟨u, hu, rfl⟩
  · exact .inl rfl
  · rw [State.buf_setStatus, State.buf_invalidate]
    exact .inl rfl
  · exact hu.buf.imp id fun hslot => ⟨rfl, hslot⟩

theorem exec_buf_wf (h : exec i s = .next t) (hwf : s.buf.wf = true) : t.buf.wf = true := by
  rcases exec_buf h with hbuf | ⟨_, k, v, _, hv, hbuf⟩
  · rw [hbuf, hwf]
  · rw [hbuf]
    exact bufWrite_wf s.buf k v hv hwf

theorem exec_memByte {x : Nat} (h : exec i s = .next t)
    (hx : ∀ k : Slot, storeSlotOf i = some k → x < slotAddr k ∨ slotAddr k + 32 ≤ x) :
    memByte t.buf x = memByte s.buf x := by
  rcases exec_buf h with hbuf | ⟨_, k, v, hk, hv, hbuf⟩
  · rw [hbuf]
  · rw [hbuf]
    exact memByte_bufWrite_ne s.buf k v x hv (hx k hk)

theorem exec_buf_of_no_slot (h : exec i s = .next t) (hk : storeSlotOf i = none) : t.buf = s.buf := by
  rcases exec_buf h with hbuf | ⟨_, k, v, hk', _, _⟩
  · exact hbuf
  · rw [hk] at hk'
    cases hk'

theorem exec_buf_of_error (h : exec i s = .next t) (herr : t.err ≠ .ok) : t.buf = s.buf :=
  (exec_buf h).resolve_right fun hslot => herr hslot.1

theorem Writes.host (h : Writes i s u) : u.pending = s.pending ∧ u.response = s.response := by
  cases h.cases with
  | field | scalar | point | slot | flag => exact ⟨rfl, rfl⟩

theorem exec_host (h : exec i s = .next t) : t.pending = s.pending ∧ t.response = s.response := by
  rcases exec_cases h with ⟨_, rfl⟩ | ⟨c, _, _, rfl⟩ | ⟨u, hu, rfl⟩
  · exact ⟨rfl, rfl⟩
  · simp
  · exact hu.host

/-! ## STATUS (`10_state.md` R26, `60_exceptions.md` R200) -/

theorem Writes.sticky (h : Writes i s u) : u.sticky = s.sticky := by
  cases h.cases with
  | field | scalar | point | slot | flag => rfl

theorem exec_sticky (h : exec i s = .next t) : t.sticky = (s.sticky || decide (t.err ≠ .ok)) := by
  rcases exec_cases h with ⟨_, rfl⟩ | ⟨c, _, _, rfl⟩ | ⟨u, hu, rfl⟩
  · rfl
  · rw [State.sticky_setStatus, State.sticky_invalidate, State.err_setStatus]
  · rw [State.sticky_setStatus, hu.sticky, State.err_setStatus]

theorem ok_mem_codesOf (i : Instr) : .ok ∈ codesOf i := by cases i <;> exact List.mem_cons_self

theorem exec_err_mem_codesOf (h : exec i s = .next t) (hwf : i.wellFormed = true) : t.err ∈ codesOf i := by
  rcases exec_cases h with ⟨hill, _⟩ | ⟨c, _, hc, rfl⟩ | ⟨u, _, rfl⟩
  · rw [hwf] at hill
    cases hill
  · exact hc
  · exact ok_mem_codesOf i

theorem exec_statusConsistent (h : exec i s = .next t) : t.StatusConsistent := by
  intro herr
  rw [exec_sticky h, decide_eq_true herr, Bool.or_true]

end Sys2Proof.Machine
end

section
/-!
The invariant (`10_state.md` R22, R26) and the host's accesses. `Served` says once what a served access can leave; the invariant
and STICKY are then followed through its cases.
-/

namespace Sys2Proof.Machine

variable {i : Instr} {s t : State}

/-! ## Points of E through a command -/

theorem pointsOnCurve_setP (hs : s.PointsOnCurve) (rd : PReg) {v : Option Point} (hv : ∀ A, v = some A → onCurve A = true) :
    (s.setP rd v).PointsOnCurve := by
  intro q A hA
  rw [State.getP_setP] at hA
  split at hA
  · exact hv A hA
  · exact hs q A hA

theorem pointsOnCurve_setP_some (hs : s.PointsOnCurve) (rd : PReg) {A : Point} (hA : onCurve A = true) :
    (s.setP rd (some A)).PointsOnCurve :=
  pointsOnCurve_setP hs rd fun _ h => Option.some.inj h ▸ hA

theorem pointsOnCurve_invalidate (hs : s.PointsOnCurve) (d : Dest) : (s.invalidate d).PointsOnCurve := by
  cases d with
  | p rd => exact pointsOnCurve_setP hs rd fun _ h => nomatch h
  | none | f rd | s rd => exact hs

/-- A command keeps every point on E where its rule does: an error only invalidates. -/
theorem pointsOnCurve_of_endCommand {d : Dest} {r : Except ResultCode State} (h : endCommand d s r = .next t)
    (hs : s.PointsOnCurve) (hr : ∀ u, r = .ok u → u.PointsOnCurve) : t.PointsOnCurve := by
  rcases endCommand_cases h with ⟨u, hu, rfl⟩ | ⟨c, _, rfl⟩
  · exact hr u hu
  · exact pointsOnCurve_invalidate hs d

theorem pointsOnCurve_of_no_point_dest (h : exec i s = .next t) (hs : s.PointsOnCurve) (hd : ∀ rd, destOf i ≠ .p rd) :
    t.PointsOnCurve := fun q A hA => hs q A (exec_getP h (hd q) ▸ hA)

/-- Every value of a run stands in one of its registers. -/
theorem exists_reg_of_mem_readRun {α : Type} (file : Vector (Option α) Config.nReg) :
    ∀ (n k : Nat) (as : List α), readRun file k n = .ok as → ∀ a ∈ as, ∃ r : Fin Config.nReg, file[r] = some a := by
  intro n
  induction n with
  | zero =>
    intro k as h a ha
    cases h
    cases ha
  | succ n ih =>
    intro k as h a ha
    rw [readRun] at h
    split at h
    case h_1 => cases h
    case h_2 b hb =>
      split at h
      case h_1 => cases h
      case h_2 bs hbs =>
        cases h
        rcases List.mem_cons.1 ha with rfl | hmem
        · obtain ⟨hk, hreg⟩ := Vector.getElem?_eq_some_iff.1 (Option.join_eq_some_iff.1 hb)
          exact ⟨⟨k, hk⟩, hreg⟩
        · exact ih (k + 1) bs hbs a hmem

/-- The sum of PMSM is a point of E where its points are (`44_msm.md` R190). -/
theorem pmsmRule_pointsOnCurve {rd : PReg} {ra : SReg} {rb : PReg} {nsm1 npm1 : CountField} (hs : s.PointsOnCurve)
    {u : State} (h : pmsmRule rd ra rb nsm1 npm1 s = .ok u) : u.PointsOnCurve := by
  rcases pmsmRule_cases rd ra rb nsm1 npm1 s with herr | herr | ⟨ss, As, _, hAs, hok⟩
  · rw [herr] at h
    cases h
  · rw [herr] at h
    cases h
  · rw [hok] at h
    cases h
    refine pointsOnCurve_setP_some hs rd (onCurve_pointMultiSum ss fun A hA => ?_)
    obtain ⟨r, hr⟩ := exists_reg_of_mem_readRun _ _ _ _ hAs A hA
    exact hs r A hr

/-- A P register only ever takes points of E (`10_state.md` R22). -/
theorem exec_pointsOnCurve (h : exec i s = .next t) (hs : s.PointsOnCurve) : t.PointsOnCurve := by
  cases i with
  | pident rd =>
    rw [exec_pident] at h
    refine pointsOnCurve_of_endCommand h hs fun u hu => ?_
    cases hu
    exact pointsOnCurve_setP_some hs rd onCurve_pointIdentity
  | padd rd ra rb =>
    rw [exec_padd] at h
    refine pointsOnCurve_of_endCommand h hs fun u hu => ?_
    obtain ⟨A, B, hA, hB, rfl⟩ := rule2_ok hu
    exact pointsOnCurve_setP_some hs rd (onCurve_pointAdd (hs ra A hA) (hs rb B hB))
  | pdbl rd ra =>
    rw [exec_pdbl] at h
    refine pointsOnCurve_of_endCommand h hs fun u hu => ?_
    obtain ⟨A, hA, rfl⟩ := rule1_ok hu
    exact pointsOnCurve_setP_some hs rd (onCurve_pointDouble (hs ra A hA))
  | pneg rd ra =>
    rw [exec_pneg] at h
    refine pointsOnCurve_of_endCommand h hs fun u hu => ?_
    obtain ⟨A, hA, rfl⟩ := rule1_ok hu
    exact pointsOnCurve_setP_some hs rd (onCurve_pointNeg (hs ra A hA))
  | psmul rd ra rb vt =>
    rw [exec_psmul] at h
    refine pointsOnCurve_of_endCommand h hs fun u hu => ?_
    obtain ⟨k, A, _, hA, rfl⟩ := rule2_ok hu
    exact pointsOnCurve_setP_some hs rd (onCurve_pointMul k.val (hs rb A hA))
  | pdec rd slot =>
    rw [exec_pdec] at h
    refine pointsOnCurve_of_endCommand h hs fun u hu => ?_
    cases hdec : pointDecode (slotInt s slot) with
    | error c =>
      rw [hdec] at hu
      cases hu
    | ok A =>
      rw [hdec] at hu
      cases hu
      exact pointsOnCurve_setP_some hs rd (onCurve_of_pointDecode hdec)
  | pmsm rd ra rb nsm1 npm1 vt =>
    rw [exec_pmsm] at h
    split at h
    · exact pointsOnCurve_of_endCommand h hs fun u hu => pmsmRule_pointsOnCurve hs hu
    · cases h
      exact hs
  | fadd | fsub | fneg | fmul | fsqr | finv | fisqrt | fsel | fld | fst | sadd | smul | szero | sone | sld | sst | peq
  | penc => exact pointsOnCurve_of_no_point_dest h hs fun _ hd => nomatch hd

/-! ## The invariant through a command -/

theorem exec_inv (h : exec i s = .next t) (hs : s.Inv) : t.Inv where
  bufWf := exec_buf_wf h hs.bufWf
  points := exec_pointsOnCurve h hs.points
  status := exec_statusConsistent h

theorem execute_cases {w : Word} (h : execute w s = .next t) :
    t = s.setStatus .illegalCommand ∨ ∃ i, decode w = .ok i ∧ exec i s = .next t := by
  cases hw : decode w with
  | error e =>
    rw [execute_error w e s hw] at h
    exact .inl (Host.Outcome.next.inj h).symm
  | ok i =>
    rw [execute_ok w i s hw] at h
    exact .inr ⟨i, rfl, h⟩

theorem execute_inv {w : Word} (h : execute w s = .next t) (hs : s.Inv) : t.Inv := by
  rcases execute_cases h with rfl | ⟨i, _, hi⟩
  · exact ⟨hs.bufWf, hs.points, fun _ => Bool.or_true _⟩
  · exact exec_inv hi hs

theorem execute_sticky {w : Word} (h : execute w s = .next t) (hs : s.sticky = true) : t.sticky = true := by
  rcases execute_cases h with rfl | ⟨i, _, hi⟩
  · exact Bool.or_true _
  · rw [exec_sticky hi, hs, Bool.true_or]

/-! ## What a served access leaves -/

/-- The states an access `e` served in `s` can leave (`10_state.md` R26 to R30, `20_memory.md` R53 to R56,
`70_reset_and_hazards.md` R230): a read answers; a write of BUF, CMD or FLAG does its work; a reset; an ignored write. -/
inductive Served (s : State) : HostEvent → State → Prop
  | read (off width : Nat) (w : Word) : Served s (.read off width) { s with response := some w }
  | bufWrite (off width : Nat) (v : Word) (ha : isBufAccess off width = true) :
      Served s (.write off width v)
        { s with response := none, buf := memWrite s.buf (off - bufOffset) (leBytes width v.toNat) }
  | command (off width : Nat) (v : Word) {t : State} (h : execute v { s with response := none } = .next t) :
      Served s (.write off width v) t
  | flagWrite (off width : Nat) (v : Word) : Served s (.write off width v) ({ s with response := none }.setFlag (flagOfWord v))
  | reset (e : HostEvent) (he : e.resets = true) : Served s e (resetEngine s)
  | ignored (off width : Nat) (v : Word) : Served s (.write off width v) { s with response := none }

theorem isControlAccess_of_isPermitted {off width : Nat} (h : isPermitted off width = true)
    (hb : ¬ isBufAccess off width = true) : isControlAccess off width = true := by
  rw [isPermitted, Bool.or_eq_true] at h
  exact h.resolve_left hb

theorem served_of_hostWrite {off width : Nat} {v : Word} (hp : isPermitted off width = true)
    (h : hostWrite off width v { s with response := none } = .next t) : Served s (.write off width v) t := by
  unfold hostWrite at h
  split at h
  case isTrue hbuf =>
    cases h
    exact .bufWrite off width v hbuf
  case isFalse hbuf =>
    split at h
    case isTrue => exact .command off width v h
    case isFalse =>
      split at h
      case isTrue =>
        cases h
        exact .flagWrite off width v
      case isFalse =>
        split at h
        case isTrue hoff =>
          cases h
          split
          case isTrue hbit =>
            refine .reset _ ?_
            rw [HostEvent.resets, isControlAccess_of_isPermitted hp hbuf, decide_eq_true hoff, hbit]
            rfl
          case isFalse => exact .ignored off width v
        case isFalse =>
          cases h
          exact .ignored off width v

theorem served_of_perform {e : HostEvent} (h : perform e s = .next t) : Served s e t := by
  cases e with
  | read off width =>
    rw [perform] at h
    split at h
    · cases h
      exact .read off width _
    · cases h
  | write off width v =>
    rw [perform] at h
    split at h
    case isTrue hp => exact served_of_hostWrite hp h
    case isFalse => cases h
  | hardwareReset =>
    cases h
    exact .reset .hardwareReset rfl

theorem reset_inv : State.reset.Inv where
  bufWf := reset_buf_wf
  points r A hA := by
    rw [State.getP_reset] at hA
    cases hA
  status herr := absurd rfl herr

/-- A host write of BUF stays inside BUF (`20_memory.md` R53), and so keeps the canonical form. -/
theorem memWrite_wf_of_isBufAccess {m : Memory} {off width : Nat} (v : Nat) (hm : m.wf = true)
    (ha : isBufAccess off width = true) : (memWrite m (off - bufOffset) (leBytes width v)).wf = true := by
  obtain ⟨_, _, hlo, hhi⟩ := (isBufAccess_iff off width).1 ha
  refine memWrite_wf _ _ _ hm ?_
  rw [leBytes_length]
  change off - 0x400 + width ≤ 1024
  omega

theorem Served.inv {e : HostEvent} (h : Served s e t) (hs : s.Inv) : t.Inv := by
  have hanswered : ∀ w : Option Word, State.Inv { s with response := w } := fun _ => ⟨hs.bufWf, hs.points, hs.status⟩
  cases h with
  | read off width w => exact hanswered (some w)
  | bufWrite off width v ha => exact ⟨memWrite_wf_of_isBufAccess v.toNat hs.bufWf ha, hs.points, hs.status⟩
  | command off width v h => exact execute_inv h (hanswered none)
  | flagWrite off width v => exact ⟨hs.bufWf, hs.points, hs.status⟩
  | reset e he => exact ⟨reset_inv.bufWf, reset_inv.points, reset_inv.status⟩
  | ignored off width v => exact hanswered none

theorem Served.sticky {e : HostEvent} (h : Served s e t) (he : e.resets = false) (hs : s.sticky = true) :
    t.sticky = true := by
  cases h with
  | command off width v h => exact execute_sticky h hs
  | reset e hreset =>
    rw [he] at hreset
    cases hreset
  | read | bufWrite | flagWrite | ignored => exact hs

theorem step_inv (h : step s = .next t) (hs : s.Inv) : t.Inv := by
  cases hp : s.pending with
  | nil =>
    rw [step_nil s hp] at h
    cases h
    exact hs
  | cons e rest =>
    rw [step_cons s e rest hp] at h
    exact (served_of_perform h).inv ⟨hs.bufWf, hs.points, hs.status⟩

theorem step_sticky {e : HostEvent} {rest : List HostEvent} (hp : s.pending = e :: rest) (he : e.resets = false)
    (hs : s.sticky = true) (h : step s = .next t) : t.sticky = true := by
  rw [step_cons s e rest hp] at h
  exact (served_of_perform h).sticky he hs

end Sys2Proof.Machine
end

section
/-!
The control registers as the host sees them (`10_state.md` R26 to R29): one equation per access, and the numbers of the STATUS
and FLAG words.
-/

namespace Sys2Proof.Machine

theorem perform_flagWrite (v : Word) (s : State) :
    perform (.write flagOffset 4 v) s = .next ({ s with response := none }.setFlag (flagOfWord v)) := rfl

theorem perform_statusWrite (v : Word) (s : State) :
    perform (.write statusOffset 4 v) s = .next { s with response := none } := rfl

theorem perform_resetWrite (v : Word) (s : State) : perform (.write resetOffset 4 v) s =
    .next (if v.getLsbD 0 then resetEngine s else { s with response := none }) := rfl

theorem perform_statusRead (s : State) :
    perform (.read statusOffset 4) s = .next { s with response := some (statusWord s) } := rfl

theorem perform_flagRead (s : State) : perform (.read flagOffset 4) s = .next { s with response := some (flagWord s) } := rfl

theorem perform_cmdRead (s : State) : perform (.read cmdOffset 4) s = .next { s with response := some 0#32 } := rfl

theorem perform_resetRead (s : State) : perform (.read resetOffset 4) s = .next { s with response := some 0#32 } := rfl

/-- ERR fills bits 7:0 and STICKY stands in bit 8, so the word is their sum (`10_state.md` R26). -/
theorem toNat_statusWord (s : State) :
    (statusWord s).toNat = (codeByte s.err).toNat + if s.sticky then 256 else 0 := by
  have hcode : ((codeByte s.err).setWidth 32).toNat = (codeByte s.err).toNat :=
    BitVec.toNat_setWidth_of_le (by decide)
  have hsticky : ((BitVec.ofBool s.sticky).setWidth 32 <<< 8).toNat = s.sticky.toNat <<< 8 := by
    cases s.sticky <;> rfl
  rw [statusWord, BitVec.toNat_or, hcode, hsticky, Nat.or_comm, ← Nat.shiftLeft_add_eq_or_of_lt (codeByte s.err).isLt,
    Nat.add_comm]
  cases s.sticky <;> rfl

theorem toNat_flagWord (s : State) : (flagWord s).toNat = if s.flag then 1 else 0 := by
  rw [flagWord]
  cases s.flag <;> rfl

end Sys2Proof.Machine
end

section

namespace Sys2Proof.Machine

/-- Settles O58: the invariant is followed through the one host access a step serves. -/
theorem everyStepKeepsTheInvariant : Obligations.EveryStepKeepsTheInvariant :=
  fun _ _ hs h => step_inv h hs

/-- Settles O16: of the accesses that are no reset only a command writes STICKY, and it never clears it. -/
theorem onlyResetClearsSticky : Obligations.OnlyResetClearsSticky :=
  fun _ _ _ _ hp he hs h => step_sticky hp he hs h

/-- Settles O50, one file at a time. -/
theorem onlyTheDestinationRegisterChanges : Obligations.OnlyTheDestinationRegisterChanges :=
  fun _ _ _ h => ⟨fun _ => exec_getF h, fun _ => exec_getS h, fun _ => exec_getP h⟩

/-- Settles O51: an error only invalidates, and the writes of a row without FLAG leave it. -/
theorem onlyFisqrtAndPeqWriteFlag : Obligations.OnlyFisqrtAndPeqWriteFlag :=
  fun _ _ _ h hf => exec_flag h hf

/-- Settles O52, from the one case in which a command changes BUF. -/
theorem onlyTheNamedSlotChanges : Obligations.OnlyTheNamedSlotChanges :=
  fun _ _ _ h => ⟨fun _ => exec_memByte h, exec_buf_of_no_slot h, exec_buf_of_error h, exec_host h⟩

/-- Settles O53: both clauses hold at the end of every command, whichever way it ends. -/
theorem statusAfterACommand : Obligations.StatusAfterACommand :=
  fun _ _ _ hwf h => ⟨exec_sticky h, exec_err_mem_codesOf h hwf⟩

/-- Settles O6: `withFetchWord` places the very write to CMD that the first clause is about. -/
theorem stepRunsTheDecodedCommand : Obligations.StepRunsTheDecodedCommand := by
  have hserve : ∀ (s : State) (w : Word) (i : Instr) (rest : List HostEvent), s.pending = .write cmdOffset 4 w :: rest →
      decode w = .ok i → step s = exec i { s with pending := rest, response := none } := by
    intro s w i rest hp hw
    rw [step_command s w rest hp, execute_ok w i _ hw]
  refine ⟨hserve, fun s w i hw => hserve (s.withFetchWord 32 w.toNat) w i s.pending ?_ hw⟩
  rw [State.withFetchWord, tableWord_toNat]

/-- Settles O7: it is the idle case of `step`. -/
theorem noAccessNoChange : Obligations.NoAccessNoChange := step_nil

/-- Settles O8: no register holds a value and BUF lists no byte. -/
theorem resetStateIsAsSpecified : Obligations.ResetStateIsAsSpecified :=
  ⟨State.getF_reset, State.getS_reset, State.getP_reset, rfl, rfl, rfl, fun _ => rfl⟩

/-- Settles O9, access by access. -/
theorem controlRegisterWrites : Obligations.ControlRegisterWrites := by
  intro s v rest
  refine ⟨fun hp => ?_, fun hp => ?_, fun hp hv => ?_, fun hp hv => ?_⟩
  · exact (step_cons s _ rest hp).trans (perform_flagWrite v _)
  · exact (step_cons s _ rest hp).trans (perform_statusWrite v _)
  · refine (step_cons s _ rest hp).trans ((perform_resetWrite v _).trans ?_)
    rw [if_pos hv, resetEngine]
  · refine (step_cons s _ rest hp).trans ((perform_resetWrite v _).trans ?_)
    rw [if_neg (Bool.eq_false_iff.1 hv)]

/-- Settles O11, access by access; the numbers are those of the two words. -/
theorem controlRegisterReads : Obligations.ControlRegisterReads := by
  intro s rest
  refine ⟨fun hp => ?_, fun hp => ?_, fun hp => ?_, fun hp => ?_⟩
  · exact ⟨statusWord s, toNat_statusWord s, (step_cons s _ rest hp).trans (perform_statusRead _)⟩
  · exact ⟨flagWord s, toNat_flagWord s, (step_cons s _ rest hp).trans (perform_flagRead _)⟩
  · exact (step_cons s _ rest hp).trans (perform_cmdRead _)
  · exact (step_cons s _ rest hp).trans (perform_resetRead _)

/-- Settles O57: empty registers, empty BUF and ERR 0x00 meet the three clauses. -/
theorem resetMeetsTheInvariant : Obligations.ResetMeetsTheInvariant := reset_inv

end Sys2Proof.Machine
end

section
/-!
Every command gives a next state (`60_exceptions.md` R202, R204), and so does every permitted host access; a reserved one is
refused (`20_memory.md` R55). A step takes exactly the first access off `pending`, whatever that access does.
-/

namespace Sys2Proof.Machine

variable {s t : State}

/-! ## Commands and accesses give a next state -/

/-- The commands by shape: a store, a load, PMSM with its check of the runs, and every other ends its rule directly. -/
theorem exec_next (i : Instr) (s : State) : ∃ t, exec i s = .next t := by
  cases i with
  | fld | sld | pdec =>
    simp only [exec_fld, exec_sld, exec_pdec]
    exact loadSlot_next ..
  | fst | sst | penc =>
    simp only [exec_fst, exec_sst, exec_penc]
    exact storeSlot_next ..
  | pmsm =>
    rw [exec_pmsm]
    split
    · exact endCommand_next ..
    · exact ⟨_, rfl⟩
  | fadd | fsub | fneg | fmul | fsqr | finv | fisqrt | fsel | sadd | smul | szero | sone | pident | padd | pdbl | pneg
  | psmul | peq =>
    simp only [exec_fadd, exec_fsub, exec_fneg, exec_fmul, exec_fsqr, exec_finv, exec_fisqrt, exec_fsel, exec_sadd,
      exec_smul, exec_szero, exec_sone, exec_pident, exec_padd, exec_pdbl, exec_pneg, exec_psmul, exec_peq]
    exact endCommand_next ..

theorem execute_next (w : Word) (s : State) : ∃ t, execute w s = .next t := by
  cases hw : decode w with
  | error e => exact ⟨_, execute_error w e s hw⟩
  | ok i =>
    rw [execute_ok w i s hw]
    exact exec_next i s

/-- Of the writes only that of CMD does more than set a field or reset. -/
theorem hostWrite_next (off width : Nat) (v : Word) (s : State) : ∃ t, hostWrite off width v s = .next t := by
  unfold hostWrite
  split
  · exact ⟨_, rfl⟩
  · split
    · exact execute_next v s
    · split
      · exact ⟨_, rfl⟩
      · split <;> exact ⟨_, rfl⟩

theorem perform_next {e : HostEvent} (s : State) (he : e.permitted = true) : ∃ t, perform e s = .next t := by
  cases e with
  | read off width => exact ⟨_, perform_read off width s he⟩
  | write off width v =>
    rw [perform_write off width v s he]
    exact hostWrite_next ..
  | hardwareReset => exact ⟨_, rfl⟩

theorem perform_read_reserved {off width : Nat} (s : State) (h : ¬ isPermitted off width = true) :
    perform (.read off width) s = .refused (.reservedAccess off width) := if_neg h

theorem perform_write_reserved {off width : Nat} (v : Word) (s : State) (h : ¬ isPermitted off width = true) :
    perform (.write off width v) s = .refused (.reservedAccess off width) := if_neg h

/-! ## What is left of `pending` -/

theorem execute_pending {w : Word} (h : execute w s = .next t) : t.pending = s.pending := by
  rcases execute_cases h with rfl | ⟨i, _, hi⟩
  · rfl
  · exact (exec_host hi).1

theorem Served.pending {e : HostEvent} (h : Served s e t) : t.pending = s.pending := by
  cases h with
  | command off width v h => exact execute_pending (s := { s with response := none }) h
  | read | bufWrite | flagWrite | reset | ignored => rfl

theorem step_pending (h : step s = .next t) : t.pending = s.pending.tail := by
  cases hp : s.pending with
  | nil =>
    rw [step_nil s hp] at h
    cases h
    exact hp
  | cons e rest =>
    rw [step_cons s e rest hp] at h
    exact (served_of_perform h).pending

/-! ## Steps and runs of permitted accesses -/

theorem step_next {e : HostEvent} {rest : List HostEvent} (hp : s.pending = e :: rest) (he : e.permitted = true) :
    ∃ t, step s = .next t := by
  rw [step_cons s e rest hp]
  exact perform_next _ he

theorem step_next_of_all_permitted (hs : ∀ e ∈ s.pending, e.permitted = true) : ∃ t, step s = .next t := by
  cases hp : s.pending with
  | nil => exact ⟨s, step_nil s hp⟩
  | cons e rest => exact step_next hp (hs e (by rw [hp]; exact List.mem_cons_self))

theorem run_next_of_all_permitted (n : Nat) : ∀ s : State, (∀ e ∈ s.pending, e.permitted = true) →
    ∃ t : State, Host.Core.run core n s = .next t ∧ t.pending = s.pending.drop n := by
  induction n with
  | zero => exact fun s _ => ⟨s, run_zero s, rfl⟩
  | succ n ih =>
    intro s hs
    obtain ⟨t, hstep⟩ := step_next_of_all_permitted hs
    have htail : t.pending = s.pending.tail := step_pending hstep
    obtain ⟨u, hrun, hdrop⟩ := ih t fun e he => hs e (List.mem_of_mem_tail (htail ▸ he))
    refine ⟨u, (run_succ n s t hstep).trans hrun, ?_⟩
    rw [hdrop, htail, List.drop_tail]

end Sys2Proof.Machine
end

section
/-!
BUF as the host sees it (`20_memory.md` R51, R53): the number of a word read from it, the bytes of that number, and the bounds
of a permitted access.
-/

namespace Sys2Proof.Machine

open Sys2Proof.Config

theorem isBufAccess_le_bufSize {off width : Nat} (h : isBufAccess off width = true) :
    off - bufOffset + width ≤ bufSize := by
  obtain ⟨_, _, hlo, hhi⟩ := (isBufAccess_iff off width).1 h
  change off - 0x400 + width ≤ 1024
  omega

theorem fromLE_memRead_lt (m : Memory) (a n : Nat) : fromLE (memRead m a n) < 256 ^ n := by
  simpa using fromLE_lt (memRead m a n)

/-- Byte j of the little-endian integer of `n` bytes of memory is the j-th of these bytes. -/
theorem fromLE_memRead_byte (m : Memory) (a : Nat) {n j : Nat} (hj : j < n) :
    fromLE (memRead m a n) / 256 ^ j % 256 = (memByte m (a + j)).toNat := by
  have hbytes : leBytes n (fromLE (memRead m a n)) = memRead m a n := by
    simpa using leBytes_fromLE (memRead m a n)
  rw [← leBytes_getElem_toNat n _ j (by simpa using hj), ← memRead_getElem m n a j (by simpa using hj)]
  simp only [hbytes]

/-- At most four bytes fit a word, so the word read is their integer. -/
theorem toNat_hostReadValue_buf {off width : Nat} (s : State) (h : isBufAccess off width = true) :
    (hostReadValue off width s).toNat = fromLE (memRead s.buf (off - bufOffset) width) := by
  obtain ⟨hwidth, _⟩ := (isBufAccess_iff off width).1 h
  have hfits : 256 ^ width ≤ 2 ^ 32 := by rcases hwidth with rfl | rfl | rfl <;> decide
  rw [hostReadValue_buf off width s h, BitVec.toNat_ofNat]
  exact Nat.mod_eq_of_lt ((fromLE_memRead_lt ..).trans_le hfits)

theorem isPermitted_of_isBufAccess {off width : Nat} (h : isBufAccess off width = true) : isPermitted off width = true := by
  rw [isPermitted, h, Bool.true_or]

end Sys2Proof.Machine
end

section

namespace Sys2Proof.Machine

/-- Settles O12: the word read is the integer of the bytes, and its bytes are they. -/
theorem bufReadIsLittleEndian : Obligations.BufReadIsLittleEndian := by
  intro s rest off width hwidth halign hlo hhi hp
  have hbuf : isBufAccess off width = true := (isBufAccess_iff off width).2 ⟨hwidth, halign, hlo, hhi⟩
  refine ⟨hostReadValue off width s, ?_, fun j hj => ?_, ?_⟩
  · rw [toNat_hostReadValue_buf s hbuf]
    exact fromLE_memRead_lt ..
  · rw [toNat_hostReadValue_buf s hbuf]
    exact fromLE_memRead_byte s.buf _ hj
  · rw [step_cons s _ rest hp, perform_read off width _ (isPermitted_of_isBufAccess hbuf), hostReadValue_buf off width _ hbuf,
      hostReadValue_buf off width s hbuf]

/-- Settles O13: the write is of the value's bytes, which read back, and it leaves every byte outside it alone. -/
theorem bufWriteChangesExactlyItsBytes : Obligations.BufWriteChangesExactlyItsBytes := by
  intro s rest off width v hwf hwidth halign hlo hhi hp
  have hbuf : isBufAccess off width = true := (isBufAccess_iff off width).2 ⟨hwidth, halign, hlo, hhi⟩
  refine ⟨{ s with pending := rest, response := none,
                   buf := memWrite s.buf (off - bufOffset) (leBytes width v.toNat) }, ?_, rfl, fun j hj => ?_, fun a ha => ?_⟩
  · rw [step_cons s _ rest hp, perform_write off width v _ (isPermitted_of_isBufAccess hbuf), hostWrite_buf off width v _ hbuf]
  · exact memByte_memWrite_leBytes s.buf _ width v.toNat j hwf (isBufAccess_le_bufSize hbuf) hj
  · exact memByte_memWrite_ne _ _ _ a (by rw [leBytes_length]; exact ha)

/-- Settles O14: the two clauses are the two sides of `isPermitted`. -/
theorem reservedAccessIsRefused : Obligations.ReservedAccessIsRefused := by
  intro s rest off width v
  rw [← isPermitted_iff off width]
  refine ⟨fun hperm => ⟨fun hp => step_next hp hperm, fun hp => step_next hp hperm⟩,
    fun hres => ⟨fun hp => ?_, fun hp => ?_⟩⟩
  · rw [step_cons s _ rest hp, perform_read_reserved _ hres]
  · rw [step_cons s _ rest hp, perform_write_reserved v _ hres]

/-- Settles O15, by induction on the number of steps: a step serves the first access and leaves the others. -/
theorem permittedRunsNeverStop : Obligations.PermittedRunsNeverStop := run_next_of_all_permitted

end Sys2Proof.Machine
end

section
/-!
Decoder and encoder are inverse (`30_encoding.md` R71 to R79). Both follow the rows of R73, so a row is named by any command of
it: its format, its opcode, and the command of that row whose operands are a word's fields. What the decoder does is said once
in these terms (`decode_row`, `decode_cases`), and what is left are two facts about a row: its command read from the command's
own word is the command, and written again it is the word.
-/

namespace Sys2Proof

/-! ## The rows of the table -/

/-- The format of the command's row (`30_encoding.md` R73). -/
def rowFormat : Instr → Format
  | .fadd _ _ _ | .fsub _ _ _ | .fmul _ _ _ | .fsel _ _ _ | .sadd _ _ _ | .smul _ _ _ | .padd _ _ _ => .r3
  | .fneg _ _ | .fsqr _ _ | .finv _ _ | .fisqrt _ _ | .pdbl _ _ | .pneg _ _ => .r2
  | .szero _ | .sone _ | .pident _ => .r1
  | .peq _ _ => .cmp
  | .psmul _ _ _ _ => .sm
  | .fld _ _ | .sld _ _ | .pdec _ _ => .ld
  | .fst _ _ | .sst _ _ | .penc _ _ => .st
  | .pmsm _ _ _ _ _ _ => .v

/-- The `op` of the command's row (`30_encoding.md` R73). -/
def rowOpcode : Instr → BitVec 8
  | .fadd _ _ _ => 0x10
  | .fsub _ _ _ => 0x11
  | .fneg _ _ => 0x12
  | .fmul _ _ _ => 0x13
  | .fsqr _ _ => 0x14
  | .finv _ _ => 0x15
  | .fisqrt _ _ => 0x16
  | .fsel _ _ _ => 0x17
  | .fld _ _ => 0x18
  | .fst _ _ => 0x19
  | .sadd _ _ _ => 0x20
  | .smul _ _ _ => 0x21
  | .szero _ => 0x22
  | .sone _ => 0x23
  | .sld _ _ => 0x28
  | .sst _ _ => 0x29
  | .pident _ => 0x30
  | .padd _ _ _ => 0x31
  | .pdbl _ _ => 0x32
  | .pneg _ _ => 0x33
  | .psmul _ _ _ _ => 0x34
  | .peq _ _ => 0x35
  | .pdec _ _ => 0x38
  | .penc _ _ => 0x39
  | .pmsm _ _ _ _ _ _ => 0x40

/-- The command of the same row whose operands are the fields of `w` (`30_encoding.md` R71, R72). -/
def rowCommand (i : Instr) (w : Word) : Instr :=
  match i with
  | .fadd _ _ _ => .fadd (rdField w) (raField w) (rbField w)
  | .fsub _ _ _ => .fsub (rdField w) (raField w) (rbField w)
  | .fneg _ _ => .fneg (rdField w) (raField w)
  | .fmul _ _ _ => .fmul (rdField w) (raField w) (rbField w)
  | .fsqr _ _ => .fsqr (rdField w) (raField w)
  | .finv _ _ => .finv (rdField w) (raField w)
  | .fisqrt _ _ => .fisqrt (rdField w) (raField w)
  | .fsel _ _ _ => .fsel (rdField w) (raField w) (rbField w)
  | .fld _ _ => .fld (rdField w) (slotField w)
  | .fst _ _ => .fst (slotField w) (raField w)
  | .sadd _ _ _ => .sadd (rdField w) (raField w) (rbField w)
  | .smul _ _ _ => .smul (rdField w) (raField w) (rbField w)
  | .szero _ => .szero (rdField w)
  | .sone _ => .sone (rdField w)
  | .sld _ _ => .sld (rdField w) (slotField w)
  | .sst _ _ => .sst (slotField w) (raField w)
  | .pident _ => .pident (rdField w)
  | .padd _ _ _ => .padd (rdField w) (raField w) (rbField w)
  | .pdbl _ _ => .pdbl (rdField w) (raField w)
  | .pneg _ _ => .pneg (rdField w) (raField w)
  | .psmul _ _ _ _ => .psmul (rdField w) (raField w) (rbField w) (vtField w)
  | .peq _ _ => .peq (raField w) (rbField w)
  | .pdec _ _ => .pdec (rdField w) (slotField w)
  | .penc _ _ => .penc (slotField w) (raField w)
  | .pmsm _ _ _ _ _ _ => .pmsm (rdField w) (raField w) (rbField w) (nsm1Field w) (npm1Field w) (vtField w)

/-- The bits of the operand fields that a format uses (`30_encoding.md` R72). -/
def fieldMask : Format → Word
  | .r3 => 0x000FFF00#32
  | .r2 => 0x0000FF00#32
  | .r1 => 0x00000F00#32
  | .cmp => 0x000FF000#32
  | .sm => 0x100FFF00#32
  | .ld => 0x001F0F00#32
  | .st => 0x001FF000#32
  | .v => 0x1FFFFF00#32

/-- Every bit of a word is compared or belongs to an operand. -/
theorem formatMask_or_fieldMask (fmt : Format) : formatMask fmt ||| fieldMask fmt = BitVec.allOnes 32 := by
  cases fmt <;> rfl

/-- The bits of `w` that the row compares are the row's `match` (`30_encoding.md` R74). -/
def MatchesRow (i : Instr) (w : Word) : Prop := w &&& formatMask (rowFormat i) = (rowOpcode i).setWidth 32

/-! ## The decoder, row by row -/

/-- Every format compares the whole `op` field. -/
theorem opField_of_masked {fmt : Format} {op : BitVec 8} {w : Word} (h : w &&& formatMask fmt = op.setWidth 32) :
    opField w = op := by
  have hlow : opField (w &&& formatMask fmt) = opField w := by
    have hmask : opField (formatMask fmt) = BitVec.allOnes 8 := by cases fmt <;> rfl
    calc opField (w &&& formatMask fmt) = opField w &&& opField (formatMask fmt) := by
          simp [opField, BitVec.extractLsb, BitVec.extractLsb'_and]
      _ = opField w := by rw [hmask, BitVec.and_allOnes]
  rw [← hlow, h]
  exact BitVec.eq_of_toNat_eq (by simpa [opField, BitVec.extractLsb] using op.isLt)

/-- A word with a row's `op` is put to that row's tests. -/
theorem decode_row (i : Instr) {w : Word} (h : opField w = rowOpcode i) :
    decode w = strict (rowFormat i) (rowOpcode i) w (rowCommand i w) := by
  unfold decode
  rw [h]
  cases i <;> rfl

/-- What passes a row's tests is the row's command, and the word matches the row. -/
theorem matchesRow_of_strict {fmt : Format} {i j : Instr} {w : Word} (h : strict fmt (opField w) w i = .ok j)
    (hfmt : fmt = rowFormat i) (hop : (opField w).toNat = (rowOpcode i).toNat) (hi : i = rowCommand i w) :
    MatchesRow j w ∧ j.wellFormed = true ∧ j = rowCommand j w := by
  subst hfmt
  obtain ⟨hmask, hwf, rfl⟩ := strict_cases h
  rw [BitVec.eq_of_toNat_eq hop] at hmask
  exact ⟨hmask, hwf, hi⟩

/-- A word that decodes matches the row of its command, which is well formed and has the word's fields as its operands. -/
theorem decode_cases {w : Word} {i : Instr} (h : decode w = .ok i) :
    MatchesRow i w ∧ i.wellFormed = true ∧ i = rowCommand i w := by
  unfold decode at h
  dsimp only at h
  split at h
  case h_26 => cases h
  all_goals
    rename_i hop
    exact matchesRow_of_strict h rfl hop rfl

/-! ## The encoder, row by row -/

/-- The word of a command matches the command's row. -/
theorem encode_matchesRow (i : Instr) : MatchesRow i (encode i) := by
  have hform : Laws.RowForm.Statement i := by
    cases i
    exacts [Laws.RowForm.fadd .., Laws.RowForm.fsub .., Laws.RowForm.fneg .., Laws.RowForm.fmul .., Laws.RowForm.fsqr ..,
      Laws.RowForm.finv .., Laws.RowForm.fisqrt .., Laws.RowForm.fsel .., Laws.RowForm.fld .., Laws.RowForm.fst ..,
      Laws.RowForm.sadd .., Laws.RowForm.smul .., Laws.RowForm.szero .., Laws.RowForm.sone .., Laws.RowForm.sld ..,
      Laws.RowForm.sst .., Laws.RowForm.pident .., Laws.RowForm.padd .., Laws.RowForm.pdbl .., Laws.RowForm.pneg ..,
      Laws.RowForm.psmul .., Laws.RowForm.peq .., Laws.RowForm.pdec .., Laws.RowForm.penc .., Laws.RowForm.pmsm ..]
  cases i <;> exact hform

/-- The command read from its own word is the command: each field stands where the row reads it. -/
theorem rowCommand_encode (i : Instr) : rowCommand i (encode i) = i := by
  cases i with
  | fadd | fsub | fmul | fsel | sadd | smul | padd | fneg | fsqr | finv | fisqrt | pdbl | pneg | szero | sone | pident | peq =>
    simp [rowCommand, encode, encodeReg, Fin.ext_iff, rdField_or, raField_or, rbField_or, rdField_place_op,
      raField_place_op, rbField_place_op]
  | fld | sld | pdec =>
    simp [rowCommand, encode, encodeLoad, Fin.ext_iff, rdField_or, slotField_or, rdField_place_op, slotField_place_op]
  | fst | sst | penc =>
    simp [rowCommand, encode, encodeStore, Fin.ext_iff, raField_or, slotField_or, raField_place_op, slotField_place_op]
  | psmul | pmsm =>
    simp [rowCommand, encode, encodeReg, Fin.ext_iff, rdField_or, raField_or, rbField_or, nsm1Field_or, npm1Field_or,
      vtField_or, rdField_place_op, raField_place_op, rbField_place_op, nsm1Field_place_op, npm1Field_place_op,
      vtField_place_op]

/-- The word of a row's command is the row's `op` and the operand fields of `w`. -/
theorem encode_rowCommand (i : Instr) (w : Word) :
    encode (rowCommand i w) = (rowOpcode i).setWidth 32 ||| (w &&& fieldMask (rowFormat i)) := by
  cases i with
  | fadd | fsub | fmul | fsel | sadd | smul | padd | fneg | fsqr | finv | fisqrt | pdbl | pneg | szero | sone | pident | peq =>
    simp only [rowCommand, encode, encodeReg, place_rdField, place_raField, place_rbField, place_zero, BitVec.or_zero,
      BitVec.or_assoc, mask_or]
    rfl
  | fld | sld | pdec =>
    simp only [rowCommand, encode, encodeLoad, place_rdField, place_slotField, BitVec.or_assoc, mask_or]
    rfl
  | fst | sst | penc =>
    simp only [rowCommand, encode, encodeStore, place_raField, place_slotField, BitVec.or_assoc, mask_or]
    rfl
  | psmul | pmsm =>
    simp only [rowCommand, encode, encodeReg, place_rdField, place_raField, place_rbField, place_nsm1Field,
      place_npm1Field, place_vtField, BitVec.or_assoc, mask_or]
    rfl

/-- A word that matches a row is the word of the row's command with its fields. -/
theorem encode_rowCommand_of_matchesRow {i : Instr} {w : Word} (h : MatchesRow i w) : encode (rowCommand i w) = w := by
  rw [encode_rowCommand, ← h, mask_or, formatMask_or_fieldMask, BitVec.and_allOnes]

/-! ## The round trip -/

/-- The word of a command matches the command's row, whose tests it passes with the command it was made from. -/
theorem decode_encode {i : Instr} (hwf : i.wellFormed = true) : decode (encode i) = .ok i := by
  have hrow : MatchesRow i (encode i) := encode_matchesRow i
  rw [decode_row i (opField_of_masked hrow), rowCommand_encode]
  exact strict_ok hrow hwf

/-- A word that decodes matches its command's row, and a row has one word for the fields it reads. -/
theorem encode_of_decode {w : Word} {i : Instr} (h : decode w = .ok i) : encode i = w := by
  obtain ⟨hrow, _, hi⟩ := decode_cases h
  rw [hi]
  exact encode_rowCommand_of_matchesRow hrow

theorem wellFormed_of_decode {w : Word} {i : Instr} (h : decode w = .ok i) : i.wellFormed = true := by
  obtain ⟨_, hwf, _⟩ := decode_cases h
  exact hwf

end Sys2Proof
end

section
/-!
A word that is no well-formed command's (`30_encoding.md` R74, R78): `Execute` ends it with IllegalCommand.
-/

namespace Sys2Proof.Machine

/-- Such a word decodes to nothing, since it would be the word of what it decodes to. -/
theorem execute_of_not_encode {w : Word} (h : ∀ i : Instr, i.wellFormed = true → encode i ≠ w) (s : State) :
    execute w s = .next (s.setStatus .illegalCommand) := by
  cases hw : decode w with
  | error e => exact execute_error w e s hw
  | ok i => exact absurd (encode_of_decode hw) (h i (wellFormed_of_decode hw))

theorem setStatus_illegalCommand (s : State) :
    s.setStatus .illegalCommand = { s with err := .illegalCommand, sticky := true } := by
  simp [State.setStatus]

end Sys2Proof.Machine
end

section

namespace Sys2Proof.Machine

/-- Settles O1: the word passes its row's tests, and the row reads each field where the encoder put it. -/
theorem decodeOfEncode : Obligations.DecodeOfEncode := fun _ => decode_encode

/-- Settles O2: a word is its row's `op` and its operand fields, with no bit left over. -/
theorem decodedWordIsTheEncoding : Obligations.DecodedWordIsTheEncoding :=
  fun _ _ h => ⟨wellFormed_of_decode h, encode_of_decode h⟩

/-- Settles O4: `Execute` ends such a word with IllegalCommand, and the step that serves its write to CMD is `Execute`. -/
theorem illegalWordChangesOnlyStatus : Obligations.IllegalWordChangesOnlyStatus := by
  intro s w hw
  refine ⟨?_, fun rest hp => ?_⟩
  · rw [execute_of_not_encode hw, setStatus_illegalCommand]
  · rw [step_command s w rest hp, execute_of_not_encode hw, setStatus_illegalCommand]

/-- Settles O3: the decoder evaluated on twelve words. -/
theorem listedWordsDecode : Obligations.ListedWordsDecode := by
  unfold Obligations.ListedWordsDecode
  decide

/-- Settles O48: neither command's rule reads the hint. -/
theorem hintChangesNothing : Obligations.HintChangesNothing :=
  ⟨fun s rd ra rb => (exec_psmul s rd ra rb true).trans (exec_psmul s rd ra rb false).symm,
   fun s rd ra rb nsm1 npm1 => (exec_pmsm s rd ra rb nsm1 npm1 true).trans (exec_pmsm s rd ra rb nsm1 npm1 false).symm⟩

end Sys2Proof.Machine
end

section
/-!
What every command family shares: the word of a well-formed command has its row's format and opcode (`30_encoding.md` R72,
R73), and a store of a valid register leaves its encoding in the slot and all else as it was (`20_memory.md` R52).
-/

namespace Sys2Proof.Machine

/-- A well-formed command has the form of its row. -/
theorem hasForm_of_wellFormed {i : Instr} (hwf : i.wellFormed = true) : HasForm i (rowFormat i) (rowOpcode i).toNat := by
  refine ⟨?_, decode_encode hwf⟩
  rw [BitVec.ofNat_toNat]
  exact encode_matchesRow i

theorem setSlot_setStatus_ok (s : State) (k : Slot) (v : List Byte) :
    (s.setSlot k v).setStatus .ok = { s with buf := bufWrite s.buf k v, err := .ok } := by
  simp [State.setStatus, State.setSlot]

/-- A store of a valid source: the slot holds the encoding, no byte outside it and nothing else but ERR changes. -/
theorem storeSlot_some_effect {α : Type} (code : α → Nat) (slot : Slot) {s : State} (v : α) (hwf : s.buf.wf = true) :
    ∃ t : State, storeSlot (some v) code slot s = .next t ∧ t = { s with buf := t.buf, err := .ok } ∧
      SlotHolds t.buf slot (code v) ∧
      ∀ x, x < 32 * slot.val ∨ 32 * slot.val + 32 ≤ x → memByte t.buf x = memByte s.buf x := by
  have hslot := slotHolds_bufWrite s.buf slot (code v) hwf
  have hframe := fun x => memByte_bufWrite_ne s.buf slot (le32 (code v)) x (le32_length _)
  rw [storeSlot_some, setSlot_setStatus_ok]
  -- The stored bytes stay folded from here on.
  generalize bufWrite s.buf slot (le32 (code v)) = m at hslot hframe ⊢
  exact ⟨{ s with buf := m, err := .ok }, rfl, rfl, hslot, hframe⟩

end Sys2Proof.Machine
end

section
/-!
The field operations on canonical integers (`40_field.md` R101 to R105): what each leaves as an integer in [0, p), where it
vanishes, and which elements are squares, by the field laws of ZMod p.
-/

namespace Sys2Proof.Machine

open Sys2Proof.Config

/-! ## Integers and residues -/

theorem val_eq_zero_iff {a : Fp} : a.val = 0 ↔ a = fpZero := (Fin.ext_iff (b := fpZero)).symm

theorem fpZ_eq_zero_iff_val {a : Fp} : fpZ a = 0 ↔ a.val = 0 := fpZ_eq_zero.trans val_eq_zero_iff.symm

/-- Every residue is that of a field element. -/
theorem fpZ_surjective : Function.Surjective fpZ := by
  have : NeZero pMod := ⟨pMod_pos.ne'⟩
  intro z
  exact ⟨toFp z.val, by rw [fpZ_toFp, ZMod.natCast_zmod_val]⟩

theorem sq_mul_mod_eq_one_iff (r a : Fp) : r.val * r.val * a.val % pMod = 1 ↔ fpZ r * fpZ r * fpZ a = 1 := by
  rw [← natCast_eq_one_iff _ _ pMod_prime.one_lt, Nat.cast_mul, Nat.cast_mul, fpZ, fpZ]

/-- A square over the integers mod p is a square of ZMod p. -/
theorem exists_sq_mod_eq_iff (a : Fp) : (∃ b : Fp, b.val * b.val % pMod = a.val) ↔ IsSquare (fpZ a) := by
  have hsq (b : Fp) : b.val * b.val % pMod = a.val ↔ fpZ a = fpZ b * fpZ b := by
    rw [← fpZ_mul, fpZ_inj, eq_comm, Fin.ext_iff]
    rfl
  simp only [hsq, IsSquare, fpZ_surjective.exists]

/-! ## Difference, opposite and sign -/

theorem val_fpSub (a b : Fp) : (fpSub a b).val = if b.val ≤ a.val then a.val - b.val else a.val + pMod - b.val := by
  have ha := a.isLt
  have hb := b.isLt
  change (a.val + (pMod - b.val)) % pMod = _
  split
  case isTrue hle =>
    rw [show a.val + (pMod - b.val) = a.val - b.val + pMod by omega, Nat.add_mod_right, Nat.mod_eq_of_lt (by omega)]
  case isFalse hlt =>
    rw [Nat.mod_eq_of_lt (by omega)]
    omega

theorem intCast_fpSub (a b : Fp) : ((fpSub a b).val : Int) = ((a.val : Int) - b.val) % pMod := by
  change (((a.val + (pMod - b.val)) % pMod : Nat) : Int) = _
  rw [Int.natCast_mod, Nat.cast_add, Nat.cast_sub b.isLt.le, ← Int.add_emod_right (a.val - b.val)]
  congr 1
  ring

theorem val_fpNeg (a : Fp) : (fpNeg a).val = if a.val = 0 then 0 else pMod - a.val := by
  have ha := a.isLt
  change (pMod - a.val) % pMod = _
  split
  case isTrue h0 => rw [h0, Nat.sub_zero, Nat.mod_self]
  case isFalse h0 => exact Nat.mod_eq_of_lt (by omega)

theorem fpNeg_fpNeg (a : Fp) : fpNeg (fpNeg a) = a := fpZ_injective (by rw [fpZ_neg, fpZ_neg, neg_neg])

/-- p is odd, so the opposite of a nonzero element has the other sign. -/
theorem sgn_fpNeg {a : Fp} (h : a.val ≠ 0) : sgn (fpNeg a) = 1 - sgn a := by
  have ha := a.isLt
  have hodd := pMod_odd
  rw [sgn, sgn, val_fpNeg, if_neg h]
  omega

theorem sgn_withSign {s : Nat} {r : Fp} (hs : s < 2) (h0 : r.val = 0 → s = 0) : sgn (withSign s r) = s := by
  unfold withSign
  split
  case isTrue h => exact h
  case isFalse h =>
    have hlt : sgn r < 2 := Nat.mod_lt _ (by decide)
    have hr : r.val ≠ 0 := fun hr => h (by rw [h0 hr, sgn, hr])
    rw [sgn_fpNeg hr]
    omega

/-- Of the two roots of a square one is even and one odd. -/
theorem eq_of_sq_eq_of_sgn_eq {u r : Fp} (hsq : fpZ u * fpZ u = fpZ r * fpZ r) (hsgn : sgn u = sgn r) : u = r := by
  have := pMod_fact
  rcases mul_self_eq_mul_self_iff.1 hsq with h | h
  · exact fpZ_injective h
  · by_cases hr : r.val = 0
    · exact fpZ_injective (by rw [h, fpZ_eq_zero_iff_val.2 hr, neg_zero])
    · obtain rfl : u = fpNeg r := fpZ_injective (by rw [h, fpZ_neg])
      rw [sgn_fpNeg hr] at hsgn
      have hlt : sgn r < 2 := Nat.mod_lt _ (by decide)
      omega

/-! ## Product, square and inverse -/

theorem val_fpMul_eq_zero_iff (a b : Fp) : (fpMul a b).val = 0 ↔ a.val = 0 ∨ b.val = 0 := by
  have := pMod_fact
  simp only [← fpZ_eq_zero_iff_val, fpZ_mul, mul_eq_zero]

theorem sub_mul_sub_mod (a : Fp) : (pMod - a.val) * (pMod - a.val) % pMod = a.val * a.val % pMod := by
  rw [← ZMod.natCast_eq_natCast_iff', Nat.cast_mul, Nat.cast_mul, Nat.cast_sub a.isLt.le, ZMod.natCast_self]
  ring

theorem val_fpInv (a : Fp) : (fpInv a).val = a.val ^ (pMod - 2) % pMod := by
  change powMod pMod a.val (pMod - 2) % pMod = _
  rw [powMod_eq _ _ _ pMod_pos, Nat.mod_mod]

theorem mul_fpInv_mod {a : Fp} (ha : a.val ≠ 0) : a.val * (fpInv a).val % pMod = 1 := by
  have := pMod_fact
  rw [mul_mod_eq_one_iff, fpZ_inv, mul_inv_cancel₀ (mt fpZ_eq_zero_iff_val.1 ha)]

theorem eq_fpInv_of_mul_mod {a u : Fp} (h : a.val * u.val % pMod = 1) : u = fpInv a := by
  have := pMod_fact
  rw [mul_mod_eq_one_iff] at h
  exact fpZ_injective (by rw [fpZ_inv, eq_inv_of_mul_eq_one_right h])

end Sys2Proof.Machine
end

section
/-!
The inverse square root (`40_field.md` R107): the root finder answers for the nonzero squares and for nothing else, with the
even root, and a square has only one inverse square root of each sign.
-/

namespace Sys2Proof.Machine

theorem fpInvSqrt_of_isSquare {a : Fp} (h0 : a.val ≠ 0) (hsq : IsSquare (fpZ a)) :
    ∃ r, fpInvSqrt a = some r ∧ sgn r = 0 := by
  have hcond : a ≠ fpZero ∧ fpIsSquare a = true := ⟨mt val_eq_zero_iff.2 h0, (fpIsSquare_iff a).2 hsq⟩
  have heven (c : Fp) : sgn (withSign 0 c) = 0 := sgn_withSign (by decide) fun _ => rfl
  unfold fpInvSqrt
  rw [if_pos hcond]
  dsimp only
  split
  · exact ⟨_, rfl, heven _⟩
  · exact ⟨_, rfl, heven _⟩

theorem eq_of_invSqrt_of_sgn_eq {a u r : Fp} (hu : fpZ u * fpZ u * fpZ a = 1) (hr : fpZ r * fpZ r * fpZ a = 1)
    (hsgn : sgn u = sgn r) : u = r := by
  have := pMod_fact
  have ha : fpZ a ≠ 0 := right_ne_zero_of_mul_eq_one hu
  exact eq_of_sq_eq_of_sgn_eq (mul_right_cancel₀ ha (hu.trans hr.symm)) hsgn

theorem fpInvSqrt_eq_none {a : Fp} (h : a.val = 0 ∨ ¬ IsSquare (fpZ a)) : fpInvSqrt a = none := by
  refine if_neg fun hcond => ?_
  obtain ⟨hne, hsq⟩ := hcond
  rcases h with h0 | hns
  · exact hne (val_eq_zero_iff.1 h0)
  · exact hns ((fpIsSquare_iff a).1 hsq)

end Sys2Proof.Machine
end

section
/-!
The commands of the field family whose rule is no plain `fieldBinary` or `fieldUnary` (`40_field.md` R104, R105, R107).
-/

namespace Sys2Proof.Machine

theorem exec_finv_of_ne_zero {s : State} {rd ra : FReg} {a : Fp} (ha : s.getF ra = some a) (h0 : a.val ≠ 0) :
    exec (.finv rd ra) s = .next ((s.setF rd (some (fpInv a))).setStatus .ok) := by
  rw [exec_finv, ha, need_some]
  simp only [if_neg (mt val_eq_zero_iff.2 h0), endCommand_ok]

theorem exec_finv_of_eq_zero {s : State} {rd ra : FReg} {a : Fp} (ha : s.getF ra = some a) (h0 : a.val = 0) :
    exec (.finv rd ra) s = .next ((s.setF rd none).setStatus .undefinedInverse) := by
  rw [exec_finv, ha, need_some]
  simp only [if_pos (val_eq_zero_iff.1 h0), endCommand_error, State.invalidate_f]

theorem exec_fisqrt_some {s : State} {rd ra : FReg} {a : Fp} (ha : s.getF ra = some a) : exec (.fisqrt rd ra) s =
    .next (((s.setF rd (some ((fpInvSqrt a).getD fpZero))).setFlag (fpInvSqrt a).isSome).setStatus .ok) := by
  rw [exec_fisqrt, ha, rule1_some, endCommand_ok, flagOfRoot]

theorem exec_fsqr_eq_fmul (s : State) (rd ra : FReg) : exec (.fsqr rd ra) s = exec (.fmul rd ra ra) s := by
  rw [exec_fsqr, exec_fmul]
  cases s.getF ra with
  | none => rfl
  | some a => rfl

end Sys2Proof.Machine
end

section

namespace Sys2Proof.Machine

/-- Settles O20: p is prime, so ZMod p has no zero divisors. -/
theorem fmulResult : Obligations.FmulResult := fun s rd ra rb =>
  ⟨hasForm_of_wellFormed rfl, fun a b ha hb =>
    ⟨fpMul a b, rfl, val_fpMul_eq_zero_iff a b, fieldBinary_some fpMul rd ra rb s ha hb⟩⟩

/-- Settles O22: the exponent p − 2 gives the inverse in ZMod p, which is unique. -/
theorem finvResult : Obligations.FinvResult := fun _ _ _ =>
  ⟨hasForm_of_wellFormed rfl,
    fun a ha h0 => ⟨fpInv a, mul_fpInv_mod h0, fun _ => eq_fpInv_of_mul_mod, val_fpInv a, exec_finv_of_ne_zero ha h0⟩,
    fun _ ha h0 => exec_finv_of_eq_zero ha h0⟩

/-- Settles O23: the finder's root is an even one, and a square has one even root. -/
theorem fisqrtResult : Obligations.FisqrtResult := by
  intro s rd ra
  refine ⟨hasForm_of_wellFormed rfl, fun a ha h0 hsq => ?_, fun a ha hno => ?_⟩
  · obtain ⟨r, hr, heven⟩ := fpInvSqrt_of_isSquare h0 ((exists_sq_mod_eq_iff a).1 hsq)
    have hroot : fpZ r * fpZ r * fpZ a = 1 := fpInvSqrt_sound hr
    refine ⟨r, (sq_mul_mod_eq_one_iff r a).2 hroot, heven, fun u hu hueven => ?_, ?_⟩
    · exact eq_of_invSqrt_of_sgn_eq ((sq_mul_mod_eq_one_iff u a).1 hu) hroot (hueven.trans heven.symm)
    · rw [exec_fisqrt_some ha, hr]
      rfl
  · rw [exists_sq_mod_eq_iff] at hno
    rw [exec_fisqrt_some ha, fpInvSqrt_eq_none hno]
    rfl

/-- Settles O25: the slot's integer is n, and the decoder accepts it exactly below p. -/
theorem fldResult : Obligations.FldResult := by
  intro s rd slot
  refine ⟨hasForm_of_wellFormed rfl, fun n hn hslot => ⟨fun v hv => ?_, fun hle => ?_⟩⟩
  · have hdec : fpDecode (slotInt s slot) = .ok v := by rw [slotInt_of_slotHolds hn hslot, fpDecode_of_lt v hv]
    rw [exec_fld, loadSlot_ok _ _ _ _ _ hdec]
  · have hdec : fpDecode (slotInt s slot) = .error .nonCanonicalEncoding := by
      rw [slotInt_of_slotHolds hn hslot, fpDecode_of_le hle]
    rw [exec_fld, loadSlot_error _ _ _ _ _ hdec, State.invalidate_f]

/-- Settles O26: a < p < 2^255 bounds byte 31, and the slot then holds what FLD accepts. -/
theorem fstResult : Obligations.FstResult := by
  intro s slot ra
  refine ⟨hasForm_of_wellFormed rfl, fun a hwf ha => ?_, fun ha => ?_⟩
  · obtain ⟨t, hstore, ht, hslot, hframe⟩ := storeSlot_some_effect Fin.val slot a hwf
    have hlt : a.val < 2 ^ 255 := a.isLt.trans pMod_lt
    refine ⟨t, ?_, ht, hslot, ?_, hframe, fun rd => ?_⟩
    · rw [exec_fst, ha, hstore]
    · rw [hslot 31 (by decide)]
      omega
    · exact ((fldResult t rd slot).2 a.val (by omega) hslot).1 a rfl
  · rw [exec_fst, ha, storeSlot_none]

/-- Settles O17: FADD is the two-source shape with `fpAdd`, whose value is the sum reduced once. -/
theorem faddResult : Obligations.FaddResult := fun s rd ra rb =>
  ⟨hasForm_of_wellFormed rfl, fun _ _ ha hb => fieldBinary_some fpAdd rd ra rb s ha hb⟩

/-- Settles O18: one addition of p, where the difference is negative, is the reduction of the integer difference. -/
theorem fsubResult : Obligations.FsubResult := fun s rd ra rb =>
  ⟨hasForm_of_wellFormed rfl, fun a b ha hb =>
    ⟨fpSub a b, val_fpSub a b, intCast_fpSub a b, fieldBinary_some fpSub rd ra rb s ha hb⟩⟩

/-- Settles O19: the opposite is p − a but for a = 0; p is odd, so the sign flips. -/
theorem fnegResult : Obligations.FnegResult := fun s rd ra =>
  ⟨hasForm_of_wellFormed rfl, fun a ha =>
    ⟨fpNeg a, val_fpNeg a, congrArg Fin.val (fpNeg_fpNeg a), sgn_fpNeg, fieldUnary_some fpNeg rd ra s ha⟩⟩

/-- Settles O21: FSQR is FMUL of the register with itself, and (p − a)² ≡ (−a)². -/
theorem fsqrResult : Obligations.FsqrResult := fun s rd ra =>
  ⟨hasForm_of_wellFormed rfl, exec_fsqr_eq_fmul s rd ra, fun a ha =>
    ⟨sub_mul_sub_mod a, fieldUnary_some fpSqr rd ra s ha⟩⟩

/-- Settles O24: the rule of two sources fails on either NONE, before FLAG selects. -/
theorem fselResult : Obligations.FselResult := by
  intro s rd ra rb
  refine ⟨hasForm_of_wellFormed rfl, fun a b ha hb => fieldBinary_some (fpSelect s.flag) rd ra rb s ha hb, fun hnone => ?_⟩
  rw [exec_fsel]
  rcases hnone with h | h
  · rw [h, rule2_none_left, endCommand_error, State.invalidate_f]
  · rw [h, rule2_none_right, endCommand_error, State.invalidate_f]

end Sys2Proof.Machine
end

section
/-!
What the scalar family needs (`41_scalar.md` R121, R124): L is prime, so a product of scalars vanishes only with a factor; and
a load from a slot that holds the encoding of n ends as the decoder answers on n.
-/

namespace Sys2Proof.Machine

open Sys2Proof.Config

theorem lOrd_dvd_val_iff (a : Zl) : lOrd ∣ a.val ↔ a.val = 0 := by
  rw [Nat.dvd_iff_mod_eq_zero, Nat.mod_eq_of_lt a.isLt]

theorem val_zlMul_eq_zero_iff (a b : Zl) : (zlMul a b).val = 0 ↔ a.val = 0 ∨ b.val = 0 := by
  change a.val * b.val % lOrd = 0 ↔ _
  rw [← Nat.dvd_iff_mod_eq_zero, lOrd_prime.dvd_mul, lOrd_dvd_val_iff, lOrd_dvd_val_iff]

variable {α : Type} {d : Dest} {dec : Nat → Except ResultCode α} {put : State → α → State} {slot : Slot} {s : State} {n : Nat}

theorem loadSlot_ok_of_slotHolds {v : α} (hn : n < 2 ^ 256) (hslot : SlotHolds s.buf slot n) (hdec : dec n = .ok v) :
    loadSlot d dec put slot s = .next ((put s v).setStatus .ok) :=
  loadSlot_ok _ _ _ _ _ (by rw [slotInt_of_slotHolds hn hslot, hdec])

theorem loadSlot_error_of_slotHolds {c : ResultCode} (hn : n < 2 ^ 256) (hslot : SlotHolds s.buf slot n)
    (hdec : dec n = .error c) : loadSlot d dec put slot s = .next ((s.invalidate d).setStatus c) :=
  loadSlot_error _ _ _ _ _ (by rw [slotInt_of_slotHolds hn hslot, hdec])

end Sys2Proof.Machine
end

section

namespace Sys2Proof.Machine

/-- Settles O28: L is prime, so it divides a product of canonical integers only if one of them is 0. -/
theorem smulResult : Obligations.SmulResult := fun s rd ra rb =>
  ⟨hasForm_of_wellFormed rfl, fun a b ha hb =>
    ⟨zlMul a b, rfl, val_zlMul_eq_zero_iff a b, scalarBinary_some zlMul rd ra rb s ha hb⟩⟩

/-- Settles O30: the slot's integer is n, and the decoder accepts it exactly below L. -/
theorem sldResult : Obligations.SldResult := by
  intro s rd slot
  refine ⟨hasForm_of_wellFormed rfl, fun n hn hslot => ⟨fun v hv => ?_, fun hle => ?_⟩⟩
  · rw [exec_sld, loadSlot_ok_of_slotHolds hn hslot (zlDecode_of_lt v hv)]
  · rw [exec_sld, loadSlot_error_of_slotHolds hn hslot (zlDecode_of_le hle), State.invalidate_s]

/-- Settles O31: a < L < 17·256^31 bounds byte 31, and the slot then holds what SLD accepts. -/
theorem sstResult : Obligations.SstResult := by
  intro s slot ra
  refine ⟨hasForm_of_wellFormed rfl, fun a hwf ha => ?_, fun ha => ?_⟩
  · obtain ⟨t, hstore, ht, hslot, hframe⟩ := storeSlot_some_effect Fin.val slot a hwf
    have hlt : a.val < 17 * 256 ^ 31 := a.isLt.trans lOrd_lt
    refine ⟨t, ?_, ht, hslot, ?_, hframe, fun rd => ?_⟩
    · rw [exec_sst, ha, hstore]
    · rw [hslot 31 (by decide)]
      omega
    · obtain ⟨_, hload⟩ := sldResult t rd slot
      exact (hload a.val (by omega) hslot).1 a rfl
  · rw [exec_sst, ha, storeSlot_none]

/-- Settles O27: SADD is the two-source shape with `zlAdd`, whose value is the sum reduced once. -/
theorem saddResult : Obligations.SaddResult := fun s rd ra rb =>
  ⟨hasForm_of_wellFormed rfl, fun _ _ ha hb => scalarBinary_some zlAdd rd ra rb s ha hb⟩

/-- Settles O29: the two rules read no register, so they complete from every state. -/
theorem scalarConstants : Obligations.ScalarConstants := by
  intro s rd
  refine ⟨hasForm_of_wellFormed rfl, hasForm_of_wellFormed rfl, toZl 0, toZl 1, rfl, ?_, ?_, ?_⟩
  · decide
  · rw [exec_szero, endCommand_ok]
  · rw [exec_sone, endCommand_ok]

end Sys2Proof.Machine
end

section
/-!
What the point family needs of the curve's law over any field (`42_point.md` R141, R142, R145): the law cleared of its
denominators, its neutral element and its inverses.
-/

namespace Sys2Proof.Edwards

variable {K : Type} [Field K] {d : K}

theorem addX_mul_one_add_tOf {x1 y1 x2 y2 : K} (h : 1 + tOf d x1 y1 x2 y2 ≠ 0) :
    addX d x1 y1 x2 y2 * (1 + tOf d x1 y1 x2 y2) = x1 * y2 + y1 * x2 := by
  rw [addX, inv_mul_cancel_right₀ h]

theorem addY_mul_one_sub_tOf {x1 y1 x2 y2 : K} (h : 1 - tOf d x1 y1 x2 y2 ≠ 0) :
    addY d x1 y1 x2 y2 * (1 - tOf d x1 y1 x2 y2) = y1 * y2 + x1 * x2 := by
  rw [addY, inv_mul_cancel_right₀ h]

theorem addX_zero_one (x y : K) : addX d x y 0 1 = x := by simp [addX, tOf]

theorem addY_zero_one (x y : K) : addY d x y 0 1 = y := by simp [addY, tOf]

theorem addX_neg_self (x y : K) : addX d x y (-x) y = 0 := by
  rw [addX, show x * y + y * -x = 0 by ring, zero_mul]

/-- The curve equation is what makes y · y + x · (−x) the denominator of the second coordinate. -/
theorem addY_neg_self {x y : K} (h : OnE d x y) (hne : 1 - tOf d x y (-x) y ≠ 0) : addY d x y (-x) y = 1 := by
  have hnum : y * y + x * -x = 1 - tOf d x y (-x) y := by
    rw [OnE] at h
    rw [tOf]
    linear_combination h
  rw [addY, hnum, mul_inv_cancel₀ hne]

end Sys2Proof.Edwards
end

section
/-!
The group law of the model's points (`42_point.md` R141 to R145), carried to ZMod p coordinate by coordinate, and from its
associativity the multiples of R146: the doubling method runs that recursion.
-/

namespace Sys2Proof.Machine

open Sys2Proof.Config

/-! ## The statements' integers in ZMod p -/

theorem intCast_val (a : Fp) : (((a.val : Nat) : Int) : ZMod pMod) = fpZ a := Int.cast_natCast a.val

theorem intCast_dCurve : (((dCurve : Nat) : Int) : ZMod pMod) = dZ := Int.cast_natCast dCurve

/-! ## Addition on points -/

theorem pointAdd_comm (A B : Point) : pointAdd A B = pointAdd B A := by
  have := pMod_fact
  refine point_ext ?_ ?_
  · rw [fpZ_pointAdd_x, fpZ_pointAdd_x, Edwards.addX_comm]
  · rw [fpZ_pointAdd_y, fpZ_pointAdd_y, Edwards.addY_comm]

theorem pointAdd_identity (A : Point) : pointAdd A pointIdentity = A := by
  have := pMod_fact
  refine point_ext ?_ ?_
  · rw [fpZ_pointAdd_x, pointIdentity, fpZ_zero, fpZ_one, Edwards.addX_zero_one]
  · rw [fpZ_pointAdd_y, pointIdentity, fpZ_zero, fpZ_one, Edwards.addY_zero_one]

theorem identity_pointAdd (A : Point) : pointAdd pointIdentity A = A := by rw [pointAdd_comm, pointAdd_identity]

/-- The denominators of R141 are nonzero on E (`42_point.md` R143). -/
theorem denominators_ne {A B : Point} (hA : onCurve A = true) (hB : onCurve B = true) :
    letI : Field (ZMod pMod) := @ZMod.instField pMod pMod_fact
    1 + Edwards.tOf dZ (fpZ A.x) (fpZ A.y) (fpZ B.x) (fpZ B.y) ≠ 0 ∧
      1 - Edwards.tOf dZ (fpZ A.x) (fpZ A.y) (fpZ B.x) (fpZ B.y) ≠ 0 := by
  have := pMod_fact
  rw [onCurve_iff] at hA hB
  exact ⟨Edwards.one_add_tOf_ne sqrtM1Z_sq dZ_not_square hA hB, Edwards.one_sub_tOf_ne sqrtM1Z_sq dZ_not_square hA hB⟩

theorem pointAdd_pointNeg {A : Point} (hA : onCurve A = true) : pointAdd A (pointNeg A) = pointIdentity := by
  have := pMod_fact
  obtain ⟨_, hne⟩ := denominators_ne hA (onCurve_pointNeg hA)
  rw [onCurve_iff] at hA
  rw [pointNeg, fpZ_neg] at hne
  refine point_ext ?_ ?_
  · rw [fpZ_pointAdd_x, pointNeg, fpZ_neg, Edwards.addX_neg_self, pointIdentity, fpZ_zero]
  · rw [fpZ_pointAdd_y, pointNeg, fpZ_neg, Edwards.addY_neg_self hA hne, pointIdentity, fpZ_one]

theorem pointAdd_assoc {A B C : Point} (hA : onCurve A = true) (hB : onCurve B = true) (hC : onCurve C = true) :
    pointAdd (pointAdd A B) C = pointAdd A (pointAdd B C) := by
  have := pMod_fact
  rw [onCurve_iff] at hA hB hC
  refine point_ext ?_ ?_
  · simp only [fpZ_pointAdd_x, fpZ_pointAdd_y]
    exact Edwards.addX_assoc sqrtM1Z_sq dZ_not_square hA hB hC
  · simp only [fpZ_pointAdd_x, fpZ_pointAdd_y]
    exact Edwards.addY_assoc sqrtM1Z_sq dZ_not_square hA hB hC

/-! ## Multiples (`42_point.md` R146, R154) -/

theorem onCurve_pointMultiple (k : Nat) {A : Point} (hA : onCurve A = true) : onCurve (pointMultiple k A) = true := by
  induction k with
  | zero =>
    rw [pointMultiple_zero]
    exact onCurve_pointIdentity
  | succ k ih =>
    rw [pointMultiple_succ]
    exact onCurve_pointAdd ih hA

/-- [j + k]A = [j]A ⊕ [k]A. -/
theorem pointMultiple_add {A : Point} (hA : onCurve A = true) (j k : Nat) :
    pointMultiple (j + k) A = pointAdd (pointMultiple j A) (pointMultiple k A) := by
  induction k with
  | zero => rw [Nat.add_zero, pointMultiple_zero, pointAdd_identity]
  | succ k ih =>
    rw [← Nat.add_assoc, pointMultiple_succ, ih, pointMultiple_succ,
      pointAdd_assoc (onCurve_pointMultiple j hA) (onCurve_pointMultiple k hA) hA]

/-- [k]([2]A) = [2k]A. -/
theorem pointMultiple_pointDouble {A : Point} (hA : onCurve A = true) (k : Nat) :
    pointMultiple k (pointDouble A) = pointMultiple (2 * k) A := by
  induction k with
  | zero => rw [Nat.mul_zero, pointMultiple_zero, pointMultiple_zero]
  | succ k ih =>
    rw [pointMultiple_succ, ih, pointDouble, Nat.mul_succ, pointMultiple_succ, pointMultiple_succ,
      pointAdd_assoc (onCurve_pointMultiple _ hA) hA hA]

/-- Double and add is R146's recursion on the integers of `fuel` bits. -/
theorem pointMulBits_eq_pointMultiple (fuel : Nat) : ∀ (k : Nat) {A : Point}, onCurve A = true → k < 2 ^ fuel →
    pointMulBits fuel k A = pointMultiple k A := by
  induction fuel with
  | zero =>
    intro k A _ hk
    obtain rfl : k = 0 := by simpa using hk
    rw [pointMulBits_zero, pointMultiple_zero]
  | succ fuel ih =>
    intro k A hA hk
    have hrest : pointMulBits fuel (k / 2) (pointDouble A) = pointMultiple (2 * (k / 2)) A := by
      rw [ih (k / 2) (onCurve_pointDouble hA) (by omega), pointMultiple_pointDouble hA]
    rw [pointMulBits_succ, hrest]
    split
    case isTrue hodd => rw [pointAdd_comm, ← pointMultiple_succ, show 2 * (k / 2) + 1 = k by omega]
    case isFalse heven => rw [show 2 * (k / 2) = k by omega]

theorem pointMul_eq_pointMultiple {A : Point} (hA : onCurve A = true) (k : Nat) : pointMul k A = pointMultiple k A :=
  pointMulBits_eq_pointMultiple _ k hA Nat.lt_log2_self

end Sys2Proof.Machine
end

section
/-!
The commands of the point family on valid sources (`42_point.md` R151, R152, R154, R155).
-/

namespace Sys2Proof.Machine

theorem rule2_comm {α β : Type} (a : Option α) (b : Option β) {k : α → β → State} {k' : β → α → State}
    (hk : ∀ x y, k x y = k' y x) : rule2 a b k = rule2 b a k' := by
  cases a with
  | none => rw [rule2_none_left, rule2_none_right]
  | some x =>
    cases b with
    | none => rw [rule2_none_left, rule2_none_right]
    | some y => rw [rule2_some, rule2_some, hk]

theorem exec_padd_comm (s : State) (rd ra rb : PReg) : exec (.padd rd ra rb) s = exec (.padd rd rb ra) s := by
  rw [exec_padd, exec_padd, rule2_comm (s.getP ra) (s.getP rb) fun A B => by rw [pointAdd_comm]]

theorem exec_padd_some {s : State} {rd ra rb : PReg} {A B : Point} (hA : s.getP ra = some A) (hB : s.getP rb = some B) :
    exec (.padd rd ra rb) s = .next ((s.setP rd (some (pointAdd A B))).setStatus .ok) := by
  rw [exec_padd, hA, hB, rule2_some, endCommand_ok]

theorem exec_pdbl_eq_padd (s : State) (rd ra : PReg) : exec (.pdbl rd ra) s = exec (.padd rd ra ra) s := by
  rw [exec_pdbl, exec_padd]
  cases s.getP ra with
  | none => rfl
  | some A => rw [rule1_some, rule2_some, pointDouble]

theorem exec_psmul_some {s : State} {rd : PReg} {ra : SReg} {rb : PReg} {vt : Bool} {k : Zl} {A : Point}
    (hk : s.getS ra = some k) (hA : s.getP rb = some A) :
    exec (.psmul rd ra rb vt) s = .next ((s.setP rd (some (pointMul k.val A))).setStatus .ok) := by
  rw [exec_psmul, hk, hA, rule2_some, endCommand_ok]

theorem exec_peq_some {s : State} {ra rb : PReg} {A B : Point} (hA : s.getP ra = some A) (hB : s.getP rb = some B) :
    exec (.peq ra rb) s = .next ((s.setFlag (flagOfEqual A B)).setStatus .ok) := by
  rw [exec_peq, hA, hB, rule2_some, endCommand_ok]

theorem flagOfEqual_eq (A B : Point) : flagOfEqual A B = decide (A.x = B.x ∧ A.y = B.y) :=
  (Bool.decide_and _ _).symm

end Sys2Proof.Machine
end

section

namespace Sys2Proof.Machine

/-- Settles O32: the equation over the integers mod p is the one in ZMod p. -/
theorem onCurveIsTheCurveEquation : Obligations.OnCurveIsTheCurveEquation := by
  intro A
  have := pMod_fact
  rw [onCurve_iff, Edwards.OnE, ← ZMod.intCast_eq_intCast_iff']
  simp only [Int.cast_add, Int.cast_neg, Int.cast_mul, Int.cast_pow, Int.cast_one, intCast_val, intCast_dCurve]
  constructor
  · intro h
    linear_combination h
  · intro h
    linear_combination h

/-- Settles O33: t² ≠ 1 on E, so each coordinate of the sum times its denominator is its numerator. -/
theorem additionIsCompleteAndClosed : Obligations.AdditionIsCompleteAndClosed := by
  intro A B hA hB t ht
  have := pMod_fact
  have htZ : (t : ZMod Config.pMod) = Edwards.tOf dZ (fpZ A.x) (fpZ A.y) (fpZ B.x) (fpZ B.y) := by
    rw [ht, Edwards.tOf]
    simp only [Int.cast_mul, intCast_val, intCast_dCurve]
    ring
  obtain ⟨hplus, hminus⟩ := denominators_ne hA hB
  rw [Ne, Ne, ← Int.dvd_iff_emod_eq_zero, ← Int.dvd_iff_emod_eq_zero, ← CharP.intCast_eq_zero_iff (ZMod Config.pMod),
    ← CharP.intCast_eq_zero_iff (ZMod Config.pMod), ← ZMod.intCast_eq_intCast_iff', ← ZMod.intCast_eq_intCast_iff']
  simp only [Int.cast_add, Int.cast_sub, Int.cast_mul, Int.cast_one, intCast_val, htZ, fpZ_pointAdd_x, fpZ_pointAdd_y]
  exact ⟨hplus, hminus, Edwards.addX_mul_one_add_tOf hplus, Edwards.addY_mul_one_sub_tOf hminus, onCurve_pointAdd hA hB⟩

/-- Settles O34: the law at (0, 1), at (−x, y), and with its operands exchanged. -/
theorem identityInverseCommutativity : Obligations.IdentityInverseCommutativity :=
  ⟨onCurve_pointIdentity, fun A => ⟨pointAdd_identity A, identity_pointAdd A⟩,
    fun _ hA => ⟨onCurve_pointNeg hA, pointAdd_pointNeg hA⟩, pointAdd_comm⟩

/-- Settles O35: the associativity of the law over ZMod p, coordinate by coordinate. -/
theorem additionIsAssociative : Obligations.AdditionIsAssociative := fun _ _ _ => pointAdd_assoc

/-- Settles O36: by associativity, double and add on k's bits is the recursion on k. -/
theorem multipleIsRepeatedAddition : Obligations.MultipleIsRepeatedAddition :=
  fun _ hA => ⟨pointMul_eq_pointMultiple hA, pointMultiple_add hA⟩

/-- Settles O38: PADD is the two-source shape with ⊕, and ⊕ is commutative. -/
theorem paddResult : Obligations.PaddResult := fun s rd ra rb =>
  ⟨hasForm_of_wellFormed rfl, exec_padd_comm s rd ra rb, fun _ _ => exec_padd_some⟩

/-- Settles O39: PDBL is PADD of the register with itself, and the law is O33's at B = A. -/
theorem pdblResult : Obligations.PdblResult := by
  intro s rd ra
  refine ⟨hasForm_of_wellFormed rfl, exec_pdbl_eq_padd s rd ra, fun A hA hE => ?_⟩
  obtain ⟨_, _, hx, hy, _⟩ := additionIsCompleteAndClosed A A hE hE
    ((Config.dCurve : Int) * (A.x.val : Int) ^ 2 * (A.y.val : Int) ^ 2) (by ring)
  refine ⟨pointAdd A A, ?_, ?_, rfl, ?_⟩
  · rw [hx, mul_comm (A.y.val : Int), mul_assoc, two_mul]
  · rw [hy, sq, sq]
  · rw [exec_pdbl_eq_padd, exec_padd_some hA hA]

/-- Settles O41: the rule gives the doubling method's multiple, which on E is the recursion's. -/
theorem psmulResult : Obligations.PsmulResult := by
  intro s rd ra rb vt
  refine ⟨hasForm_of_wellFormed rfl, fun k A hk hA hE => ?_⟩
  rw [exec_psmul_some hk hA, pointMul_eq_pointMultiple hE]

/-- Settles O37: the rule reads no register, so it completes from every state. -/
theorem pidentResult : Obligations.PidentResult := by
  intro s rd
  refine ⟨hasForm_of_wellFormed rfl, pointIdentity, rfl, ?_, ?_⟩
  · decide
  · rw [exec_pident, endCommand_ok]

/-- Settles O40: the opposite of x is (p − x) mod p, and taking it twice gives x back. -/
theorem pnegResult : Obligations.PnegResult := fun s rd ra =>
  ⟨hasForm_of_wellFormed rfl, fun A hA =>
    ⟨pointNeg A, rfl, rfl, congrArg Fin.val (fpNeg_fpNeg A.x), pointUnary_some pointNeg rd ra s hA⟩⟩

/-- Settles O42: FLAG takes the truth value of affine equality, and both values end with 0x00. -/
theorem peqResult : Obligations.PeqResult := by
  intro s ra rb
  refine ⟨hasForm_of_wellFormed rfl, fun A B hA hB => ?_⟩
  rw [exec_peq_some hA hB, flagOfEqual_eq]
  refine ⟨fun heq => ?_, fun hne => ?_⟩
  · rw [decide_eq_true heq]
  · rw [decide_eq_false hne]

end Sys2Proof.Machine
end

section
/-!
Decompression by membership in E (`43_codec.md` R171 to R175): x² is a function of y on E, the root finder answers for every
square, and of the two roots one has each sign; so the decoder accepts n exactly as the encoding of a point of E, which makes
it the inverse of `pointCode` (R174).
-/

namespace Sys2Proof.Machine

open Sys2Proof.Config

/-- On E the second coordinate prescribes x² (`43_codec.md` R171, R172). -/
theorem sq_eq_xSquared_of_onCurve {A : Point} (hA : onCurve A = true) : fpZ A.x * fpZ A.x = fpZ (xSquared A.y) := by
  have := pMod_fact
  rw [onCurve_iff, Edwards.OnE] at hA
  rw [xSquared, fpZ_mul, fpZ_inv, fpZ_sub, fpZ_add, fpZ_mul, fpZ_fpD, fpZ_sqr, fpZ_one, ← div_eq_mul_inv,
    eq_div_iff (dZ_mul_sq_add_one_ne _)]
  linear_combination -hA

theorem fpSqrt_of_isSquare {w : Fp} (hsq : IsSquare (fpZ w)) : ∃ x, fpSqrt w = some x := by
  unfold fpSqrt
  split
  case isTrue => exact ⟨_, rfl⟩
  case isFalse h0 =>
    obtain ⟨r, hr, _⟩ := fpInvSqrt_of_isSquare (mt val_eq_zero_iff.1 h0) hsq
    exact ⟨fpMul w r, by rw [hr, Option.map_some]⟩

/-- The root with the sign asked for is that of a point of E, if there is one. -/
theorem pointFromY_of_onCurve {A : Point} (hA : onCurve A = true) : pointFromY A.y (sgn A.x) = .ok A := by
  have hsq := sq_eq_xSquared_of_onCurve hA
  obtain ⟨x, hx⟩ := fpSqrt_of_isSquare ⟨fpZ A.x, hsq.symm⟩
  have hroot : fpZ A.x * fpZ A.x = fpZ x * fpZ x := hsq.trans (fpSqrt_sound hx).symm
  have hzero (h0 : x.val = 0) : sgn A.x = 0 := by
    have := pMod_fact
    rw [fpZ_eq_zero_iff_val.2 h0, mul_zero, mul_self_eq_zero, fpZ_eq_zero_iff_val] at hroot
    rw [sgn, hroot]
  have hxA : withSign (sgn A.x) x = A.x :=
    eq_of_sq_eq_of_sgn_eq ((fpZ_withSign_sq _ x).trans hroot.symm) (sgn_withSign (Nat.mod_lt _ (by decide)) hzero)
  rw [pointFromY_some _ hx, if_neg, hxA]
  rintro ⟨h0, h1⟩
  rw [hzero (val_eq_zero_iff.2 h0)] at h1
  cases h1

/-- What steps 2 to 4 of `43_codec.md` R175 return has the y and the sign they were given. -/
theorem coords_of_pointFromY {y : Fp} {s : Nat} {A : Point} (hs : s < 2) (h : pointFromY y s = .ok A) :
    A.y = y ∧ sgn A.x = s := by
  cases hr : fpSqrt (xSquared y) with
  | none =>
    rw [pointFromY_none s hr] at h
    cases h
  | some x =>
    rw [pointFromY_some s hr] at h
    split at h
    case isTrue => cases h
    case isFalse hfail =>
      cases h
      refine ⟨rfl, sgn_withSign hs fun h0 => ?_⟩
      have h1 : s ≠ 1 := fun h1 => hfail ⟨val_eq_zero_iff.1 h0, h1⟩
      omega

/-- The encoding's low 255 bits are y, since y < p < 2^255 (`43_codec.md` R170). -/
theorem pointCode_mod (A : Point) : pointCode A % 2 ^ 255 = A.y.val := by
  have hy : A.y.val < 2 ^ 255 := A.y.isLt.trans pMod_lt
  rw [pointCode, Nat.add_mul_mod_self_left, Nat.mod_eq_of_lt hy]

/-- The encoding's bit 255 is the sign of x (`43_codec.md` R170). -/
theorem pointCode_div (A : Point) : pointCode A / 2 ^ 255 = sgn A.x := by
  have hy : A.y.val < 2 ^ 255 := A.y.isLt.trans pMod_lt
  rw [pointCode, Nat.add_mul_div_left _ _ (by decide), Nat.div_eq_of_lt hy, Nat.zero_add]

/-- An integer is the encoding of the point whose y and sign of x it carries. -/
theorem pointCode_eq_iff {A : Point} {n : Nat} : pointCode A = n ↔ A.y.val = n % 2 ^ 255 ∧ sgn A.x = n / 2 ^ 255 := by
  constructor
  · rintro rfl
    exact ⟨(pointCode_mod A).symm, (pointCode_div A).symm⟩
  · rintro ⟨hy, hx⟩
    rw [pointCode, hy, hx, Nat.mod_add_div]

/-- `43_codec.md` R174 (b). -/
theorem pointDecode_pointCode {A : Point} (hA : onCurve A = true) : pointDecode (pointCode A) = .ok A := by
  rw [pointDecode_of_lt A.y (pointCode_mod A).symm, pointCode_div, pointFromY_of_onCurve hA]

/-- `43_codec.md` R174 (a). -/
theorem pointCode_of_pointDecode {A : Point} {n : Nat} (hn : n < 2 ^ 256) (h : pointDecode n = .ok A) :
    pointCode A = n := by
  rcases Nat.lt_or_ge (n % 2 ^ 255) pMod with hlt | hle
  · rw [pointDecode_of_lt ⟨_, hlt⟩ rfl] at h
    obtain ⟨hy, hx⟩ := coords_of_pointFromY (by omega) h
    exact pointCode_eq_iff.2 ⟨congrArg Fin.val hy, hx⟩
  · rw [pointDecode_of_le hle] at h
    cases h

/-- Below p the decoder fails where no point of E has the encoding, and with that code only. -/
theorem pointDecode_of_not_exists {n : Nat} (hn : n < 2 ^ 256) (hlt : n % 2 ^ 255 < pMod)
    (hno : ¬ ∃ A : Point, onCurve A = true ∧ pointCode A = n) : pointDecode n = .error .pointDecompressionFailure := by
  have hdec := pointDecode_of_lt ⟨_, hlt⟩ rfl
  rcases pointFromY_cases ⟨_, hlt⟩ (n / 2 ^ 255) with ⟨A, hok⟩ | herr
  · have hA := hdec.trans hok
    exact absurd ⟨A, onCurve_of_pointDecode hA, pointCode_of_pointDecode hn hA⟩ hno
  · exact hdec.trans herr

end Sys2Proof.Machine
end

section
/-!
The commands of the codec (`43_codec.md` R175, R176): PDEC ends as the decoder answers on the slot's integer, and PENC leaves
the encoding in its slot.
-/

namespace Sys2Proof.Machine

variable {s t : State} {rd ra : PReg} {k l : Slot} {A : Point}

/-- Where PDEC ends with 0x00 the decoder has accepted the slot's integer. -/
theorem exec_pdec_of_err_ok (h : exec (.pdec rd k) s = .next t) (hok : t.err = .ok) :
    ∃ A, pointDecode (slotInt s k) = .ok A ∧ t = (s.setP rd (some A)).setStatus .ok := by
  rw [exec_pdec] at h
  cases hdec : pointDecode (slotInt s k) with
  | ok A =>
    rw [loadSlot_ok _ _ _ _ _ hdec] at h
    exact ⟨A, rfl, (Host.Outcome.next.inj h).symm⟩
  | error c =>
    rw [loadSlot_error _ _ _ _ _ hdec] at h
    cases h
    rw [State.err_setStatus] at hok
    subst hok
    rcases pointDecode_code hdec with hc | hc <;> cases hc

theorem exec_penc_some (hwf : s.buf.wf = true) (hA : s.getP ra = some A) (h : exec (.penc k ra) s = .next t) :
    t.err = .ok ∧ SlotHolds t.buf k (pointCode A) := by
  obtain ⟨u, hstore, hu, hslot, _⟩ := storeSlot_some_effect pointCode k A hwf
  rw [exec_penc, hA, hstore] at h
  cases h
  exact ⟨by rw [hu], hslot⟩

/-- Two slots that hold the encoding of one integer hold the same bytes. -/
theorem memByte_eq_of_slotHolds {m m' : Memory} {n j : Nat} (hj : j < 32) (h : SlotHolds m k n) (h' : SlotHolds m' l n) :
    memByte m (32 * k.val + j) = memByte m' (32 * l.val + j) :=
  BitVec.eq_of_toNat_eq ((h j hj).trans (h' j hj).symm)

end Sys2Proof.Machine
end

section

namespace Sys2Proof.Machine

/-- Settles O43: the decoder accepts exactly the encodings of points of E, and y ≥ p is refused first. -/
theorem pdecResult : Obligations.PdecResult := by
  intro s rd slot
  refine ⟨hasForm_of_wellFormed rfl, fun n hn hslot => ⟨fun hle => ?_, fun A hA hy hx => ?_, fun hlt hno => ?_⟩⟩
  · rw [exec_pdec, loadSlot_error_of_slotHolds hn hslot (pointDecode_of_le hle), State.invalidate_p]
  · obtain rfl : pointCode A = n := pointCode_eq_iff.2 ⟨hy, hx⟩
    rw [exec_pdec, loadSlot_ok_of_slotHolds hn hslot (pointDecode_pointCode hA)]
  · have hnone : ¬ ∃ A : Point, onCurve A = true ∧ pointCode A = n := by
      rintro ⟨A, hA, hcode⟩
      exact hno ⟨A, hA, pointCode_eq_iff.1 hcode⟩
    rw [exec_pdec, loadSlot_error_of_slotHolds hn hslot (pointDecode_of_not_exists hn hlt hnone), State.invalidate_p]

/-- Settles O44: PENC is the store of `pointCode`. -/
theorem pencResult : Obligations.PencResult := by
  intro s slot ra
  refine ⟨hasForm_of_wellFormed rfl, fun A hwf hA => ?_, fun hnone => ?_⟩
  · rw [exec_penc, hA]
    exact storeSlot_some_effect pointCode slot A hwf
  · rw [exec_penc, hnone, storeSlot_none]

/-- Settles O45: decoder and encoder are inverse to each other on what the decoder accepts and on points of E. -/
theorem codecRoundTrips : Obligations.CodecRoundTrips := by
  refine ⟨fun s t u rd k l hwf hdec hok henc => ?_, fun s t rd ra k A hwf hA hE henc => ?_⟩
  · obtain ⟨A, hA, rfl⟩ := exec_pdec_of_err_ok hdec hok
    obtain ⟨huok, hslot⟩ := exec_penc_some (s := (s.setP rd (some A)).setStatus .ok) hwf (State.getP_setP_same s rd _) henc
    rw [pointCode_of_pointDecode (slotInt_lt s k) hA] at hslot
    exact ⟨huok, fun j hj => memByte_eq_of_slotHolds hj hslot (slotHolds_slotInt s k)⟩
  · obtain ⟨_, hslot⟩ := exec_penc_some hwf hA henc
    rw [exec_pdec, loadSlot_ok_of_slotHolds (pointCode_lt A) hslot (pointDecode_pointCode hE)]

end Sys2Proof.Machine
end

section
/-!
PMSM by its runs (`44_msm.md` R190, R191, `60_exceptions.md` R205): unequal counts, a NONE in a run, and two runs of values,
whose sum in the order written is the fold of the single multiples.
-/

namespace Sys2Proof.Machine

/-! ## The sum in the order written -/

theorem pointSum_append_singleton {Ps : List Point} (hne : Ps ≠ []) (P : Point) :
    pointSum (Ps ++ [P]) = pointAdd (pointSum Ps) P := by
  cases Ps with
  | nil => exact absurd rfl hne
  | cons Q Qs => rw [List.cons_append, pointSum_cons, pointSum_cons, List.foldl_append, List.foldl_cons, List.foldl_nil]

theorem pointSum_map_range (Q : Nat → Point) (m : Nat) : pointSum ((List.range (m + 1)).map Q) = pointFold Q m := by
  induction m with
  | zero => rfl
  | succ m ih => rw [List.range_succ, List.map_append, List.map_singleton, pointSum_append_singleton (by simp), ih, pointFold]

theorem pointMultiSum_map_range (k : Nat → Zl) (A : Nat → Point) (m : Nat) :
    pointMultiSum ((List.range (m + 1)).map k) ((List.range (m + 1)).map A) =
      pointFold (fun j => pointMul (k j).val (A j)) m := by
  rw [pointMultiSum, List.zipWith_map, List.zipWith_self, pointSum_map_range]

theorem pointFold_congr {Q Q' : Nat → Point} (m : Nat) (h : ∀ j, j ≤ m → Q j = Q' j) : pointFold Q m = pointFold Q' m := by
  induction m with
  | zero => exact h 0 (Nat.le_refl 0)
  | succ m ih => rw [pointFold, pointFold, ih fun j hj => h j (Nat.le_succ_of_le hj), h (m + 1) (Nat.le_refl _)]

/-! ## Runs by register -/

theorem exists_reg_of_runFits {k m j : Nat} (hfit : k + m ≤ 15) (hj : j ≤ m) : ∃ r : Fin Config.nReg, r.val = k + j :=
  ⟨⟨k + j, by rw [Config.nReg]; omega⟩, rfl⟩

theorem getElem?_reg {α : Type} {file : Vector (Option α) Config.nReg} {n : Nat} {r : Fin Config.nReg} (hr : r.val = n) :
    file[n]? = some file[r] := by
  subst hr
  exact Vector.getElem?_eq_getElem r.isLt

theorem readRun_error_of_reg {α : Type} {file : Vector (Option α) Config.nReg} {k m j : Nat} {r : Fin Config.nReg}
    (hj : j ≤ m) (hr : r.val = k + j) (h : file[r] = none) : readRun file k (m + 1) = .error .invalidOperand := by
  refine readRun_error file (m + 1) k j (Nat.lt_succ_of_le hj) ?_
  rw [getElem?_reg hr, h, Option.join_some]

/-! ## The rule of PMSM -/

variable {s : State} {rd : PReg} {ra : SReg} {rb : PReg} {nsm1 npm1 m : CountField} {vt : Bool}

theorem pmsmRule_of_ne (h : nsm1 ≠ npm1) : pmsmRule rd ra rb nsm1 npm1 s = .error .lengthMismatch := if_pos h

theorem pmsmRule_of_error (h : readRun s.sReg ra.val (m.val + 1) = .error .invalidOperand ∨
    readRun s.pReg rb.val (m.val + 1) = .error .invalidOperand) :
    pmsmRule rd ra rb m m s = .error .invalidOperand := by
  rw [pmsmRule, if_neg (not_not.2 rfl)]
  rcases h with hS | hP
  · rw [hS]
  · cases hS : readRun s.sReg ra.val (m.val + 1) with
    | error c => rw [readRun_code _ _ _ _ hS]
    | ok ss => rw [hP]

theorem pmsmRule_of_ok {ss : List Zl} {As : List Point} (hS : readRun s.sReg ra.val (m.val + 1) = .ok ss)
    (hP : readRun s.pReg rb.val (m.val + 1) = .ok As) :
    pmsmRule rd ra rb m m s = .ok (s.setP rd (some (pointMultiSum ss As))) := by
  rw [pmsmRule, if_neg (not_not.2 rfl), hS, hP]

/-! ## The command -/

theorem runFits_iff {r : Fin Config.nReg} : runFits r m = true ↔ r.val + m.val ≤ 15 := decide_eq_true_iff

theorem wellFormed_pmsm_iff : (Instr.pmsm rd ra rb nsm1 npm1 vt).wellFormed = true ↔
    ra.val + nsm1.val ≤ 15 ∧ rb.val + npm1.val ≤ 15 :=
  Bool.and_eq_true_iff.trans (and_congr runFits_iff runFits_iff)

theorem exec_pmsm_of_ne (hwf : (Instr.pmsm rd ra rb nsm1 npm1 vt).wellFormed = true) (h : nsm1 ≠ npm1) :
    exec (.pmsm rd ra rb nsm1 npm1 vt) s = .next ((s.setP rd none).setStatus .lengthMismatch) := by
  rw [exec_pmsm_of_wellFormed _ _ _ _ _ _ _ hwf, pmsmRule_of_ne h, endCommand_error, State.invalidate_p]

theorem exec_pmsm_of_none (hwf : (Instr.pmsm rd ra rb m m vt).wellFormed = true) {j : Nat} {a : SReg} {b : PReg}
    (hj : j ≤ m.val) (ha : a.val = ra.val + j) (hb : b.val = rb.val + j) (hnone : s.getS a = none ∨ s.getP b = none) :
    exec (.pmsm rd ra rb m m vt) s = .next ((s.setP rd none).setStatus .invalidOperand) := by
  have hrun := hnone.imp (readRun_error_of_reg (file := s.sReg) hj ha) (readRun_error_of_reg (file := s.pReg) hj hb)
  rw [exec_pmsm_of_wellFormed _ _ _ _ _ _ _ hwf, pmsmRule_of_error hrun, endCommand_error, State.invalidate_p]

/-- Two runs of values give the fold of the multiples `Q` of their pairs. -/
theorem exec_pmsm_fold (hwf : (Instr.pmsm rd ra rb m m vt).wellFormed = true) {Q : Nat → Point}
    (h : ∀ (j : Nat) (a : SReg) (b : PReg), j ≤ m.val → a.val = ra.val + j → b.val = rb.val + j →
      ∃ k A, s.getS a = some k ∧ s.getP b = some A ∧ Q j = pointMul k.val A) :
    exec (.pmsm rd ra rb m m vt) s = .next ((s.setP rd (some (pointFold Q m.val))).setStatus .ok) := by
  obtain ⟨hfitS, hfitP⟩ := wellFormed_pmsm_iff.1 hwf
  have hruns (j : Nat) (hj : j ≤ m.val) : ∃ (k : Zl) (A : Point), s.sReg[ra.val + j]? = some (some k) ∧
      s.pReg[rb.val + j]? = some (some A) ∧ Q j = pointMul k.val A := by
    obtain ⟨a, ha⟩ := exists_reg_of_runFits hfitS hj
    obtain ⟨b, hb⟩ := exists_reg_of_runFits hfitP hj
    obtain ⟨k, A, hk, hA, hQ⟩ := h j a b hj ha hb
    exact ⟨k, A, (getElem?_reg ha).trans (congrArg some hk), (getElem?_reg hb).trans (congrArg some hA), hQ⟩
  have : Nonempty Zl := ⟨toZl 0⟩
  have : Nonempty Point := ⟨pointIdentity⟩
  choose! k A hk hA hQ using hruns
  have hS := readRun_ok s.sReg (m.val + 1) ra.val k fun j hj => hk j (Nat.le_of_lt_succ hj)
  have hP := readRun_ok s.pReg (m.val + 1) rb.val A fun j hj => hA j (Nat.le_of_lt_succ hj)
  rw [exec_pmsm_of_wellFormed _ _ _ _ _ _ _ hwf, pmsmRule_of_ok hS hP, pointMultiSum_map_range, pointFold_congr m.val hQ,
    endCommand_ok]

/-- Where PSMUL ends with 0x00 its sources are valid and its destination holds the multiple. -/
theorem exec_psmul_of_err_ok {t : State} {Q : Point} (h : exec (.psmul rd ra rb vt) s = .next t) (hok : t.err = .ok)
    (hQ : t.getP rd = some Q) : ∃ k A, s.getS ra = some k ∧ s.getP rb = some A ∧ Q = pointMul k.val A := by
  rw [exec_psmul] at h
  rcases endCommand_cases h with ⟨u, hu, rfl⟩ | ⟨c, hc, rfl⟩
  · obtain ⟨k, A, hk, hA, rfl⟩ := rule2_ok hu
    rw [State.getP_setStatus, State.getP_setP_same] at hQ
    exact ⟨k, A, hk, hA, (Option.some.inj hQ).symm⟩
  · rw [State.err_setStatus, rule2_error hc] at hok
    cases hok

/-- PR6: the sum of one multiple is that multiple, and a NONE source fails both commands alike. -/
theorem exec_pmsm_zero_eq_psmul (s : State) (rd : PReg) (ra : SReg) (rb : PReg) (vt : Bool) :
    exec (.pmsm rd ra rb 0 0 vt) s = exec (.psmul rd ra rb vt) s := by
  have hwf : (Instr.pmsm rd ra rb 0 0 vt).wellFormed = true :=
    wellFormed_pmsm_iff.2 ⟨Nat.le_of_lt_succ ra.isLt, Nat.le_of_lt_succ rb.isLt⟩
  have hnone (h : s.getS ra = none ∨ s.getP rb = none) := exec_pmsm_of_none hwf (Nat.le_refl 0) rfl rfl h
  cases hk : s.getS ra with
  | none => rw [hnone (.inl hk), exec_psmul, hk, rule2_none_left, endCommand_error, State.invalidate_p]
  | some k =>
    cases hA : s.getP rb with
    | none => rw [hnone (.inr hA), exec_psmul, hA, rule2_none_right, endCommand_error, State.invalidate_p]
    | some A =>
      rw [exec_psmul_some hk hA, exec_pmsm_fold (Q := fun _ => pointMul k.val A) hwf]
      · rfl
      · intro j a b hj ha hb
        obtain rfl : j = 0 := Nat.le_zero.1 hj
        obtain rfl : a = ra := Fin.ext ha
        obtain rfl : b = rb := Fin.ext hb
        exact ⟨k, A, hk, hA, rfl⟩

end Sys2Proof.Machine
end

section

namespace Sys2Proof.Machine

/-- Settles O46: the rule's three ends in R205's order; on E each multiple of the doubling method is the recursion's. -/
theorem pmsmResult : Obligations.PmsmResult := by
  intro s rd ra rb nsm1 npm1 vt hfitS hfitP
  have hwf : (Instr.pmsm rd ra rb nsm1 npm1 vt).wellFormed = true := wellFormed_pmsm_iff.2 ⟨hfitS, hfitP⟩
  refine ⟨hasForm_of_wellFormed hwf, exec_pmsm_of_ne hwf, ?_, ?_⟩
  · rintro rfl ⟨j, a, b, hj, ha, hb, hnone⟩
    exact exec_pmsm_of_none hwf hj ha hb hnone
  · rintro rfl k A hrun
    refine exec_pmsm_fold hwf fun j a b hj ha hb => ?_
    obtain ⟨hk, hA, hE⟩ := hrun j a b hj ha hb
    exact ⟨k j, A j, hk, hA, (pointMul_eq_pointMultiple hE _).symm⟩

/-- Settles O47: a PSMUL that completes shows the values of its pair, and PMSM sums the multiples of these. -/
theorem pmsmIsFoldOfPsmul : Obligations.PmsmIsFoldOfPsmul := by
  refine ⟨fun s rd ra rb m vt Q hfitS hfitP hrun => ?_, exec_pmsm_zero_eq_psmul⟩
  refine exec_pmsm_fold (wellFormed_pmsm_iff.2 ⟨hfitS, hfitP⟩) fun j a b hj ha hb => ?_
  obtain ⟨t, ht, hok, hQ⟩ := hrun j a b hj ha hb
  exact exec_psmul_of_err_ok ht hok hQ

end Sys2Proof.Machine
end

section
/-!
The failures of a command (`60_exceptions.md` R204, R208). A NONE source makes each shape of rule raise InvalidOperand, and a
run of PMSM that is not valid makes its rule raise it; a raised code invalidates the destination register.
-/

namespace Sys2Proof.Machine

variable {s t : State} {i : Instr}

/-! ## A NONE source, shape by shape -/

theorem endCommand_rule1_of_isSome_eq_false {α : Type} {a : Option α} (d : Dest) (k : α → State)
    (ha : a.isSome = false) :
    endCommand d s (rule1 a k) = .next ((s.invalidate d).setStatus .invalidOperand) := by
  cases a with
  | none => rw [rule1_none, endCommand_error]
  | some x => cases ha

theorem endCommand_rule2_of_isSome_eq_false {α β : Type} {a : Option α} {b : Option β} (d : Dest) (k : α → β → State)
    (hab : (a.isSome && b.isSome) = false) :
    endCommand d s (rule2 a b k) = .next ((s.invalidate d).setStatus .invalidOperand) := by
  cases a with
  | none => rw [rule2_none_left, endCommand_error]
  | some x =>
    cases b with
    | none => rw [rule2_none_right, endCommand_error]
    | some y => cases hab

/-- FINV has a code of its own, but a NONE source is found first. -/
theorem exec_finv_of_isSome_eq_false {rd ra : FReg} (ha : (s.getF ra).isSome = false) :
    exec (.finv rd ra) s = .next ((s.setF rd none).setStatus .invalidOperand) := by
  have hnone : s.getF ra = none := Option.not_isSome_iff_eq_none.1 (Bool.eq_false_iff.1 ha)
  rw [exec_finv, hnone, need_none, endCommand_error, State.invalidate_f]

theorem readRun_of_runValid_eq_false {α : Type} {file : Vector (Option α) Config.nReg} {k m : Nat}
    (h : runValid file k m = false) : readRun file k (m + 1) = .error .invalidOperand := by
  obtain ⟨j, hj, hnone⟩ := List.all_eq_false.1 h
  exact readRun_error file (m + 1) k j (List.mem_range.1 hj) (Option.not_isSome_iff_eq_none.1 hnone)

theorem pmsmRule_of_runValid_eq_false {rd : PReg} {ra : SReg} {rb : PReg} {m : CountField}
    (h : (runValid s.sReg ra.val m.val && runValid s.pReg rb.val m.val) = false) :
    pmsmRule rd ra rb m m s = .error .invalidOperand :=
  pmsmRule_of_error ((Bool.and_eq_false_iff.1 h).imp readRun_of_runValid_eq_false readRun_of_runValid_eq_false)

/-- The commands by shape: no source, one, two, and FINV and PMSM, whose rules raise more than InvalidOperand. -/
theorem exec_of_sourcesValid_eq_false (hwf : i.wellFormed = true) (hcounts : countsDiffer i = false)
    (hsrc : sourcesValid i s = false) :
    exec i s = .next ((s.invalidate (destOf i)).setStatus .invalidOperand) := by
  cases i with
  | fld | sld | pdec | szero | sone | pident => cases hsrc
  | fneg | fsqr | fisqrt | pdbl | pneg =>
    simp only [exec_fneg, exec_fsqr, exec_fisqrt, exec_pdbl, exec_pneg]
    exact endCommand_rule1_of_isSome_eq_false _ _ hsrc
  | fst | sst | penc =>
    simp only [exec_fst, exec_sst, exec_penc, storeSlot]
    exact endCommand_rule1_of_isSome_eq_false _ _ hsrc
  | fadd | fsub | fmul | fsel | sadd | smul | padd | psmul | peq =>
    simp only [exec_fadd, exec_fsub, exec_fmul, exec_fsel, exec_sadd, exec_smul, exec_padd, exec_psmul, exec_peq]
    exact endCommand_rule2_of_isSome_eq_false _ _ hsrc
  | finv => exact exec_finv_of_isSome_eq_false hsrc
  | pmsm rd ra rb nsm1 npm1 vt =>
    obtain rfl : nsm1 = npm1 := not_not.1 (of_decide_eq_false hcounts)
    rw [exec_pmsm_of_wellFormed _ _ _ _ _ _ _ hwf, pmsmRule_of_runValid_eq_false hsrc, endCommand_error]
    rfl

/-! ## The destination of a failed command -/

theorem destIsNone_invalidate (d : Dest) (u : State) : DestIsNone d (u.invalidate d) := by
  cases d with
  | none => trivial
  | f r => exact State.getF_setF_same u r none
  | s r => exact State.getS_setS_same u r none
  | p r => exact State.getP_setP_same u r none

@[simp] theorem destIsNone_setStatus (d : Dest) (c : ResultCode) (u : State) :
    DestIsNone d (u.setStatus c) ↔ DestIsNone d u := by
  cases d <;> rfl

theorem destIsNone_of_err_ne_ok (hwf : i.wellFormed = true) (h : exec i s = .next t) (herr : t.err ≠ .ok) :
    DestIsNone (destOf i) t := by
  rcases exec_cases h with ⟨hill, _⟩ | ⟨c, _, _, rfl⟩ | ⟨u, _, rfl⟩
  · rw [hwf] at hill
    cases hill
  · exact (destIsNone_setStatus ..).2 (destIsNone_invalidate ..)
  · exact absurd rfl herr

end Sys2Proof.Machine
end

section

namespace Sys2Proof.Machine

/-- Settles O54: every shape of rule looks for a NONE source before anything else but PMSM's counts. -/
theorem noneSourceIsInvalidOperand : Obligations.NoneSourceIsInvalidOperand :=
  fun _ _ hwf hcounts hsrc => exec_of_sourcesValid_eq_false hwf hcounts hsrc

/-- Settles O55: of the ends of a well-formed command only that with a raised code has a nonzero one, and it invalidates. -/
theorem failedCommandLeavesNone : Obligations.FailedCommandLeavesNone :=
  fun _ _ _ hwf h herr => destIsNone_of_err_ne_ok hwf h herr

/-- Settles O5, code by code. -/
theorem codeNumbers : Obligations.CodeNumbers := ⟨rfl, rfl, rfl, rfl, rfl, rfl, rfl⟩

/-- Settles O49: each shape of command ends, and so does a PMSM term that is no command. -/
theorem commandsNeverStop : Obligations.CommandsNeverStop := exec_next

end Sys2Proof.Machine
end

section

namespace Sys2Proof.Machine

/-- `70_reset_and_hazards.md` R230, for a reset that is no longer pending. -/
theorem perform_hardwareReset (s : State) : perform .hardwareReset s = .next (resetEngine s) := rfl

/-- Settles O10: the step takes the reset off `pending` before `resetEngine` keeps what is left of it. -/
theorem hardwareResetIsReset : Obligations.HardwareResetIsReset := by
  intro s rest hp
  rw [step_cons s _ rest hp, perform_hardwareReset, resetEngine]

end Sys2Proof.Machine
end
